-- ==== Sys2Proof/Word.lean ====
section
/-! DEFINITION. The word and byte types of the engine and the colour triple a pixel step computes
(spec/00_scope.md R6, R7, R8). -/

namespace Sys2Proof

/-- A CSR value, a pixel word or a command word: unsigned 32 bits (R8, `XLEN` of R7). -/
abbrev Word := BitVec 32

/-- One channel value, or one byte of PM or SNAP: unsigned 8 bits (`CH_BITS` of R7). -/
abbrev Byte := BitVec 8

/-- The three colour lanes of a pixel, in the byte order R, G, B of R62. Lane A is never computed (R123). -/
structure Rgb where
  r : Byte
  g : Byte
  b : Byte
deriving DecidableEq, Repr

end Sys2Proof
end

