-- ==== Sys2Proof/Config.lean ====
section
/-! DEFINITION. The parameters the spec leaves OPEN (spec/00_scope.md R7, spec/10_state.md R42), as data that every
definition takes. They stand in one constant field of State, so that a statement about every state holds for every
value of them; the defaults below are those of State.reset only (assumption log 1 and 2). -/

namespace Sys2Proof

/-- The parameter `TIE`: how `round` breaks an exact half (R7, R116). -/
inductive Tie where
  /-- to the even neighbour (the spec's default) -/
  | even
  /-- toward plus infinity -/
  | up
  /-- away from zero -/
  | away
deriving DecidableEq, Repr

/-- The open parameters of one engine (R7). `N_ENGINES` is the number of engines of a platform
(Machine/Platform.lean). -/
structure Params where
  /-- `TIE` -/
  tie : Tie
  /-- `PIXMEM_BYTES`, the capacity of PM and of SNAP in bytes -/
  pixmemBytes : Nat
  /-- `CSR_BASE`, where the platform maps the CSR space; it "has no effect on any rule" (R60) -/
  csrBase : Nat
  /-- `PIX_BASE`, where the platform maps the PIX space; it "has no effect on any rule" (R60) -/
  pixBase : Nat
deriving DecidableEq, Repr

/-- The parameters State.reset takes: `TIE = even` is the spec's default (R7, D12); the capacity is the largest R7
allows. DESIGN CHOICE (log 2): R7 leaves `PIXMEM_BYTES` and the two bases open, and no other statement of the model
rests on these values. -/
def Config.defaultParams : Params := ⟨.even, 4294967292, 0, 0⟩

end Sys2Proof
end

