-- ==== Sys2Proof/Syntax.lean ====
section
/-! DEFINITION. The eleven commands, one constructor per row of spec/opcode_table.json (spec/30_encoding.md R92). -/

namespace Sys2Proof

/-- A command. "A command has no operands besides the implicit image" (R91), so no constructor has an argument. -/
inductive Instr where
  | invert
  | blackAndWhite
  | sepia
  | brightness
  | contrast
  | threshold
  | hueRotate
  | saturate
  | colorize
  | sharpen
  | blur
deriving DecidableEq, Repr

end Sys2Proof
end

