-- ==== Sys2Proof/WellFormed.lean ====
section
/-! DEFINITION. Which terms are well formed: the parameter ranges of spec/00_scope.md R7, and commands. -/

namespace Sys2Proof

/-- R7: `PIXMEM_BYTES` is "a multiple of 4, `4 <= PIXMEM_BYTES <= 2^32 - 4`". R7 gives `CSR_BASE` and
`PIX_BASE` no range. That `N_ENGINES >= 1` holds by the form of a platform (Machine/Platform.lean). -/
abbrev Params.WellFormed (p : Params) : Prop :=
  p.pixmemBytes % 4 = 0 ∧ 4 ≤ p.pixmemBytes ∧ p.pixmemBytes ≤ 4294967292

/-- Every command is well formed: the enumeration is closed and no command has an operand (R91, R93), so there is no
ill-formed term of Instr. What is ill formed is a command WORD, and Decode.lean rejects those by name. -/
abbrev Instr.WellFormed : Instr → Prop
  | .invert | .blackAndWhite | .sepia | .brightness | .contrast | .threshold
  | .hueRotate | .saturate | .colorize | .sharpen | .blur => True

end Sys2Proof
end

