-- ==== Sys2Proof/Decode.lean ====
section
/-! DEFINITION. The command decoder and encoder (spec/30_encoding.md R90 to R94, spec/opcode_table.json), the low-byte
decoding of an engine step (spec/40_apply_and_clamp.md R111) and the mnemonics. -/

namespace Sys2Proof

/-- One row of the opcode table: "A decoder matches the whole word: mask `0xFFFFFFFF`, match value as in the second
column" (R92). -/
structure OpcodeRow where
  mask : Word
  value : Word
  instr : Instr
deriving DecidableEq, Repr

/-- The opcode map of R92, row by row. -/
def opcodeRows : List OpcodeRow :=
  [⟨0xFFFFFFFF, 0x00000000, .invert⟩,
   ⟨0xFFFFFFFF, 0x00000001, .blackAndWhite⟩,
   ⟨0xFFFFFFFF, 0x00000002, .sepia⟩,
   ⟨0xFFFFFFFF, 0x00000003, .brightness⟩,
   ⟨0xFFFFFFFF, 0x00000004, .contrast⟩,
   ⟨0xFFFFFFFF, 0x00000005, .threshold⟩,
   ⟨0xFFFFFFFF, 0x00000006, .hueRotate⟩,
   ⟨0xFFFFFFFF, 0x00000007, .saturate⟩,
   ⟨0xFFFFFFFF, 0x00000008, .colorize⟩,
   ⟨0xFFFFFFFF, 0x00000009, .sharpen⟩,
   ⟨0xFFFFFFFF, 0x0000000A, .blur⟩]

/-- Why a word is no command (R93). -/
inductive DecodeError where
  /-- the field `ZERO`, bits 31:8, is not zero -/
  | upperBitsSet
  /-- `ZERO = 0` and `KIND` is in 11..255 -/
  | unknownKind
deriving DecidableEq, Repr

/-- The field `KIND` of a command word, bits 7:0 (R90). -/
def kindField (w : Word) : BitVec 8 := w.extractLsb' 0 8

/-- The field `ZERO` of a command word, bits 31:8 (R90). -/
def zeroField (w : Word) : BitVec 24 := w.extractLsb' 8 24

/-- The table row a word matches, if any. -/
def matchRow (w : Word) : List OpcodeRow → Option Instr
  | [] => none
  | row :: rows => if w &&& row.mask = row.value then some row.instr else matchRow w rows

/-- Decoding a command word: total, the same in every state (R94). -/
def decode (w : Word) : Except DecodeError Instr :=
  match matchRow w opcodeRows with
  | some i => .ok i
  | none => if zeroField w = 0 then .error .unknownKind else .error .upperBitsSet

/-- The command a running engine executes, `k = CMD[7:0]` (R111): only the field `KIND` is looked at. -/
def decodeKind (w : Word) : Except DecodeError Instr := decode (zeroField 0 ++ kindField w)

/-- The code of a kind (second column of R92). -/
def kindCode : Instr → BitVec 8
  | .invert => 0
  | .blackAndWhite => 1
  | .sepia => 2
  | .brightness => 3
  | .contrast => 4
  | .threshold => 5
  | .hueRotate => 6
  | .saturate => 7
  | .colorize => 8
  | .sharpen => 9
  | .blur => 10

/-- The command word of a kind, format `C` of R90: `ZERO = 0` in bits 31:8, `KIND` in bits 7:0. -/
def encode (i : Instr) : Word := (0 : BitVec 24) ++ kindCode i

/-- The identifier of a kind (R92), spelled as the opcode table spells it. -/
def mnemonic : Instr → String
  | .invert => "invert"
  | .blackAndWhite => "blackAndWhite"
  | .sepia => "sepia"
  | .brightness => "brightness"
  | .contrast => "contrast"
  | .threshold => "threshold"
  | .hueRotate => "hueRotate"
  | .saturate => "saturate"
  | .colorize => "colorize"
  | .sharpen => "sharpen"
  | .blur => "blur"

/-- The word an opcode-table entry of `nbits` bits stands for: the bits above `nbits` are zero. A command is always
one 32-bit word (R94). -/
def tableWord (nbits w : Nat) : Nat := w % 2 ^ nbits

/-- What the decoder reads from a table row's word. A number of more than 32 bits is no command word. -/
def decodeTableWord (nbits w : Nat) : Option Instr :=
  if tableWord nbits w < 4294967296 then
    match decode (BitVec.ofNat 32 (tableWord nbits w)) with
    | .ok i => some i
    | .error _ => none
  else none

end Sys2Proof
end

