-- ==== Sys2Proof/Machine/State.lean ====
section
/-! DEFINITION. The state of one engine (spec/10_state.md R20 to R43), the host at its two ports (script, values read,
record of rejected issues) and the schedule of the two agents; the reasons a step can stop; the state after reset. -/

namespace Sys2Proof.Machine

/-- The hidden two-valued register `STATE` (R36). -/
inductive Mode where
  | idle
  | busy
deriving DecidableEq, Repr

/-- The scan cursor `cur` (R37). -/
inductive Cursor where
  /-- the next engine step processes the pixel in row `y`, column `x` -/
  | pix (y x : Nat)
  /-- `End`: the next engine step is the completion step -/
  | fin
deriving DecidableEq, Repr

/-- A byte memory (PM or SNAP): the listed cells, addresses strictly rising, no cell holding what an unlisted address
reads as. -/
abbrev Memory := List Host.Cell

/-- What a byte nothing has written reads as. DESIGN CHOICE (log 3): the spec says "some byte value, stable until
written" (R43). -/
def Memory.unlisted : Byte := 0

/-- The five errors of the issue step (R170). -/
inductive IssueError where
  | invalidKernel
  | dimensionMismatch
  | illegalFilter
  | zeroDimension
  | capacity
deriving DecidableEq, Repr

/-- One statement of a host script (R96), and the pseudo-instruction `wait` (R97), whose length depends on the engine.
The other pseudo-instructions expand to these (Machine/Script.lean). -/
inductive HostStmt where
  /-- `csrr`: `CsrRead(n)` -/
  | csrRead (n : Nat)
  /-- `csrw`: `CsrWrite(n, v)` -/
  | csrWrite (n : Nat) (v : Word)
  /-- `pixr`: `PixRead(p)` -/
  | pixRead (p : Nat)
  /-- `pixw`: `PixWrite(p, v)` -/
  | pixWrite (p : Nat) (v : Word)
  /-- repeat `csrr STATUS` until bit 0 reads 0 -/
  | wait
deriving DecidableEq, Repr

/-- One entry of the schedule: which agent has the next step (R10), or a reset (R200), which draws the contents of PM
and SNAP ("a model draws it at reset", R43). -/
inductive Turn where
  | host
  | engine
  | reset (pm snap : Memory)
deriving DecidableEq, Repr

/-- An entry of the record of rejected issues that R211 asks for "outside the architectural state". -/
structure Rejection where
  error : IssueError
  /-- which statement of the host script it was, counting from 1 -/
  position : Nat
deriving DecidableEq, Repr

/-- Why a step stops. No state a run reaches has such a step (Safety.lean, State.Inv); all are safe (DESIGN CHOICE,
log 8). -/
inductive Fault where
  /-- Raised by memRead and memWrite: a PM byte address at or above `PIXMEM_BYTES`, which does not exist (R60). Safe. -/
  | pmAddress (a : Nat)
  /-- Raised by snapRead: a SNAP byte address at or above `PIXMEM_BYTES`, which does not exist (R60). Safe. -/
  | snapAddress (a : Nat)
  /-- Raised by an engine step whose cursor is no position of the command's scan: "the cursor never exceeds
  `(H-1, W-1)`", and blur visits interior pixels only (R37). Safe. -/
  | cursorOutsideScan (y x : Nat)
  /-- Raised by an engine step at a pixel when `CMD[7:0]` is none of the eleven kinds, for which R111 has no case. Safe. -/
  | busyWithoutCommand (cmd : Word)
deriving DecidableEq, Repr

/-- Why an instruction is refused. -/
inductive Refusal where
  /-- Raised by a refused arm of exec: the instruction has no meaning yet. Safe. No arm does so now. -/
  | notModelled (mnemonic : String)
deriving DecidableEq, Repr

/-- The state: the open parameters (constant), one engine (R20), and the host and the schedule (R10, R42, R211;
DESIGN CHOICE, log 1, 4 and 5). -/
structure State where
  /-- the parameters of R7; no step changes them -/
  params : Params
  /-- pixel memory `PM` -/
  pm : Memory
  /-- the snapshot buffer `SNAP` (R39) -/
  snap : Memory
  /-- `CTRL.IE` (R28) -/
  ie : Bool
  /-- `STATUS.DONE` (R29) -/
  done : Bool
  /-- `STATUS.ERR` (R29) -/
  err : Bool
  /-- `STATUS.PROTO` (R29) -/
  proto : Bool
  /-- `STATUS.ERRCODE` (R29) -/
  errCode : BitVec 4
  /-- `WIDTH` (R30) -/
  width : Word
  /-- `HEIGHT` (R31) -/
  height : Word
  /-- `LEN` (R32) -/
  len : Word
  /-- `CMD` (R33) -/
  cmd : Word
  /-- `STATE` (R36), visible as `STATUS.BUSY` -/
  mode : Mode
  /-- `cur` (R37) -/
  cur : Cursor
  /-- the host's: the statements of its script not yet taken (R96) -/
  script : List HostStmt
  /-- the host's: how many statements it has taken -/
  position : Nat
  /-- the host's: the values its reads returned, oldest first -/
  reads : List Word
  /-- the model's: the never-cleared record of rejected issues (R211) -/
  rejected : List Rejection
  /-- the model's: the agents of the next steps; when empty, a busy engine steps before the host -/
  turns : List Turn
deriving DecidableEq, Repr

/-- The state after reset with parameters `p` and drawn contents of PM and SNAP (R43), no script and no schedule. -/
def State.resetWith (p : Params) (pm snap : Memory) : State :=
  { params := p, pm := pm, snap := snap, ie := false, done := false, err := false, proto := false, errCode := 0,
    width := 0, height := 0, len := 0, cmd := 0, mode := .idle, cur := .fin,
    script := [], position := 0, reads := [], rejected := [], turns := [] }

/-- The machine right after reset, no byte of PM or SNAP listed. -/
def State.reset : State := State.resetWith Config.defaultParams [] []

end Sys2Proof.Machine
end

