-- ==== Sys2Proof/Machine/Rom.lean ====
section
/-! DEFINITION. The constant ROM (spec/10_state.md R41), exactly as the document writes its literals, and the constant
CSRs (R25, R26). -/

namespace Sys2Proof.Machine

/-- `INV_MAX` -/
def Rom.invMax : Int := 255

/-- `AVG_DIV` -/
def Rom.avgDiv : Int := 3

/-- Three weights over the common denominator 100. -/
structure Weights where
  r : Int
  g : Int
  b : Int
deriving DecidableEq, Repr

/-- `SEPIA_R`: `.35r+.68g+.17b` -/
def Rom.sepiaR : Weights := ⟨35, 68, 17⟩

/-- `SEPIA_G`: `.34r+.65g+.15b` -/
def Rom.sepiaG : Weights := ⟨34, 65, 15⟩

/-- `SEPIA_B`: `.27r+.53g+.13b` -/
def Rom.sepiaB : Weights := ⟨27, 53, 13⟩

/-- `THR_CUT` -/
def Rom.thrCut : Int := 150

/-- `THR_LO` -/
def Rom.thrLo : Byte := 100

/-- `THR_HI` -/
def Rom.thrHi : Byte := 200

/-- `CONTR_MID` -/
def Rom.contrMid : Int := 128

/-- The factor `1.2` of `BRIGHT_F`, `CONTR_F` and `SAT_F`: its numerator over 5. -/
def Rom.factorNum : Int := 6

/-- The denominator of the factor `1.2 = 6/5`. -/
def Rom.factorDen : Int := 5

/-- `TINT`: `(80,50,120)` for R, G, B -/
def Rom.tint : Weights := ⟨80, 50, 120⟩

/-- `SHARPEN_K[ky][kx]`, row `ky` first -/
def Rom.sharpenK : List (List Int) := [[0, -1, 0], [-1, 4, -1], [0, -1, 0]]

/-- `BLUR_DIV` -/
def Rom.blurDiv : Int := 4

/-- The constant of CSR `ID` (R25). -/
def Rom.idWord : Word := 0x50434301

/-- The field `TIE` of `CAPS` (R26). -/
def tieCode : Tie → BitVec 2
  | .even => 0
  | .up => 1
  | .away => 2

/-- CSR `CAPS` (R26): `TIE` in bits 17:16, `CHBITS = 8` in 15:12, `KSIZE = 3` in 11:8, `NFILT = 11` in 7:0. -/
def capsWord (t : Tie) : Word := (0 : BitVec 14) ++ tieCode t ++ (8 : BitVec 4) ++ (3 : BitVec 4) ++ (11 : BitVec 8)

/-- The number of pixel words PM holds, `PIXMEM_BYTES / 4` (R27). -/
def pixcap (p : Params) : Nat := p.pixmemBytes / 4

end Sys2Proof.Machine
end

