-- ==== Sys2Proof/Machine/Arith.lean ====
section
/-! DEFINITION. The clamping arithmetic unit (spec/40_apply_and_clamp.md R116 to R119) and the integer square root
(spec/00_scope.md R9). All intermediates are exact integers and never wrap (R8). -/

namespace Sys2Proof.Machine

/-- `round_TIE(N, D)` for `D > 0` (R116). `Int` division is the floor for a positive divisor. -/
def roundTie (t : Tie) (n d : Int) : Int :=
  let q := n / d
  let rem := n - q * d
  if 2 * rem < d then q
  else if d < 2 * rem then q + 1
  else
    match t with
    | .even => if q % 2 = 0 then q else q + 1
    | .up => q + 1
    | .away => if 0 ≤ n then q + 1 else q

/-- `clamp(v, 0, 255)` (R117). -/
def clamp255 (v : Int) : Int := max 0 (min 255 v)

/-- The byte holding a clamped value. -/
def toByte (v : Int) : Byte := BitVec.ofNat 8 (clamp255 v).toNat

/-- `SAT8(N, D)` (R118): round, then clamp, then store. -/
def sat8 (t : Tie) (n d : Int) : Byte := toByte (roundTie t n d)

/-- One base-4 digit of the square root at a time, `fuel` digits. -/
def isqrtFuel : Nat → Nat → Nat
  | 0, _ => 0
  | fuel + 1, n =>
    let s := 2 * isqrtFuel fuel (n / 4)
    if (s + 1) * (s + 1) ≤ n then s + 1 else s

/-- `isqrt(n)`: the largest `s` with `s*s <= n` (R9). -/
def isqrt (n : Nat) : Nat := isqrtFuel (n.log2 + 1) n

end Sys2Proof.Machine
end

