-- ==== Sys2Proof/Machine/Operands.lean ====
section
/-! DEFINITION. The implicit operands of a command: pixel addressing (spec/20_memory.md R61), the scan of the cursor
(spec/10_state.md R37) and the in-range neighbours of a kernel (spec/42_convolution.md R151, R153). -/

namespace Sys2Proof.Machine

/-- `EA(x, y, ch) = 4*(y*W + x) + ch`, computed without truncation (R61). -/
def pixelAddr (w x y ch : Nat) : Nat := 4 * (y * w + x) + ch

/-- `4*W*H`, the byte length of the image, in unbounded arithmetic (R110). -/
def imageBytes (w h : Nat) : Nat := 4 * w * h

/-- `W` as a natural number (R9). -/
def State.w (s : State) : Nat := s.width.toNat

/-- `H` as a natural number (R9). -/
def State.h (s : State) : Nat := s.height.toNat

/-- Blur scans the interior pixels, every other kind the whole image (R37). -/
def scansInterior : Instr → Bool
  | .blur => true
  | .invert | .blackAndWhite | .sepia | .brightness | .contrast | .threshold
  | .hueRotate | .saturate | .colorize | .sharpen => false

/-- The cursor a successful issue sets (R37, "Start"). -/
def startCursor (i : Instr) (w h : Nat) : Cursor :=
  if scansInterior i then
    if 3 ≤ w ∧ 3 ≤ h then .pix 1 1 else .fin
  else .pix 0 0

/-- The cursor after processing `Pix(y, x)` (R37, "Advance"). -/
def nextCursor (i : Instr) (w h y x : Nat) : Cursor :=
  if scansInterior i then
    if x + 1 < w - 1 then .pix y (x + 1) else if y + 1 < h - 1 then .pix (y + 1) 1 else .fin
  else
    if x + 1 < w then .pix y (x + 1) else if y + 1 < h then .pix (y + 1) 0 else .fin

/-- The positions the scan of a kind visits: every pixel, or the interior pixels `1 <= x <= W-2`, `1 <= y <= H-2` (R12). -/
def inScan (i : Instr) (w h y x : Nat) : Bool :=
  if scansInterior i then decide (1 ≤ x ∧ x + 1 < w ∧ 1 ≤ y ∧ y + 1 < h) else decide (x < w ∧ y < h)

/-- The coordinate `base + off - half` if it is in `[0, bound)` (R153: "The test is made on `x` and `y` separately"). -/
def neighbour (base off half bound : Nat) : Option Nat :=
  if half ≤ base + off ∧ base + off - half < bound then some (base + off - half) else none

/-- One surviving term of a kernel sum: the neighbour's column and row, and the weight. -/
structure Tap (α : Type) where
  x : Nat
  y : Nat
  weight : α
deriving DecidableEq, Repr

/-- The surviving terms of kernel row `ky` from column `kx` on, for the pixel in column `x`; `yy` is the row read. -/
def rowTaps {α : Type} (w half x yy : Nat) : Nat → List α → List (Tap α)
  | _, [] => []
  | kx, k :: ks =>
    match neighbour x kx half w with
    | some xx => ⟨xx, yy, k⟩ :: rowTaps w half x yy (kx + 1) ks
    | none => rowTaps w half x yy (kx + 1) ks

/-- The surviving terms of a kernel's rows from row `ky` on, for the pixel `(x, y)`. -/
def kernelTaps {α : Type} (w h half x y : Nat) : Nat → List (List α) → List (Tap α)
  | _, [] => []
  | ky, row :: rows =>
    match neighbour y ky half h with
    | some yy => rowTaps w half x yy 0 row ++ kernelTaps w h half x y (ky + 1) rows
    | none => kernelTaps w h half x y (ky + 1) rows

end Sys2Proof.Machine
end

