-- ==== Sys2Proof/Machine/Ops.lean ====
section
/-! DEFINITION. The named operations over memory and the engine's registers: byte memory in canonical form
(spec/20_memory.md R60 to R66), the snapshot (spec/10_state.md R39), error entry and acknowledgement
(spec/60_exceptions.md R178, R179), completion (spec/40_apply_and_clamp.md R113) and reset (spec/70 R200). -/

namespace Sys2Proof.Machine

/-- The canonical form: addresses strictly rising, no cell holding the unlisted value. -/
abbrev Memory.wf (m : Memory) : Prop :=
  m.Pairwise (fun c d => c.1 < d.1) ∧ ∀ c ∈ m, c.2 ≠ Memory.unlisted

/-- Every listed address is below `n`. -/
abbrev Memory.below (n : Nat) (m : Memory) : Prop := ∀ c ∈ m, c.1 < n

/-- The byte at an address. -/
def Memory.read : Memory → Nat → Byte
  | [], _ => Memory.unlisted
  | c :: m, a => if c.1 = a then c.2 else Memory.read m a

/-- Put a byte in front of the cells of higher addresses, unless it is the unlisted value. -/
def Memory.cons (a : Nat) (v : Byte) (m : Memory) : Memory :=
  if v = Memory.unlisted then m else (a, v) :: m

/-- Store a byte. The canonical form is kept. -/
def Memory.write : Memory → Nat → Byte → Memory
  | [], a, v => Memory.cons a v []
  | c :: m, a, v =>
    if a < c.1 then Memory.cons a v (c :: m)
    else if a = c.1 then Memory.cons a v m
    else c :: Memory.write m a v

/-- `MemRead(a, 4)`: the byte at `a` is bits 7:0 (R9, R62). -/
def Memory.readWord (m : Memory) (a : Nat) : Word :=
  m.read (a + 3) ++ m.read (a + 2) ++ m.read (a + 1) ++ m.read a

/-- `MemWrite(a, 4, v)`: least significant byte at `a` (R9, R66). -/
def Memory.writeWord (m : Memory) (a : Nat) (v : Word) : Memory :=
  (((m.write a (v.extractLsb' 0 8)).write (a + 1) (v.extractLsb' 8 8)).write (a + 2) (v.extractLsb' 16 8)).write
    (a + 3) (v.extractLsb' 24 8)

/-- `dst[a] <- src[a]` for every `a < n` (the snapshot capture of R110). -/
def Memory.copyBelow (n : Nat) (src dst : Memory) : Memory :=
  src.filter (fun c => decide (c.1 < n)) ++ dst.filter (fun c => decide (n ≤ c.1))

/-- The memory of `n` bytes that a list of cells describes; a later cell of one address wins. -/
def Memory.draw (n : Nat) : Memory → Memory → Memory
  | acc, [] => acc
  | acc, c :: cells => Memory.draw n (if c.1 < n then acc.write c.1 c.2 else acc) cells

/-- A byte sequence laid out from an address on. -/
def Memory.ofBytesAt : Nat → List Byte → Memory
  | _, [] => []
  | a, v :: vs => Memory.cons a v (Memory.ofBytesAt (a + 1) vs)

/-- PM takes new contents. -/
def setPm (m : Memory) (s : State) : State := { s with pm := m }

/-- The cursor takes a new position. -/
def setCur (c : Cursor) (s : State) : State := { s with cur := c }

/-- `MemRead(a, 1)` by the engine; an address PM does not have stops the machine. -/
def memRead (s : State) (a : Nat) : Except Fault Byte :=
  if a < s.params.pixmemBytes then .ok (s.pm.read a) else .error (.pmAddress a)

/-- `MemWrite(a, 1, v)` by the engine; an address PM does not have stops the machine. -/
def memWrite (s : State) (a : Nat) (v : Byte) : Except Fault State :=
  if a < s.params.pixmemBytes then .ok (setPm (s.pm.write a v) s) else .error (.pmAddress a)

/-- `SnapRead(a)`; an address SNAP does not have stops the machine. -/
def snapRead (s : State) (a : Nat) : Except Fault Byte :=
  if a < s.params.pixmemBytes then .ok (s.snap.read a) else .error (.snapAddress a)

/-- The three colour lanes of pixel `(x, y)` through a byte reader. Lane A is not read (R71). -/
def loadRgb (rd : Nat → Except Fault Byte) (w x y : Nat) : Except Fault Rgb := do
  let r ← rd (pixelAddr w x y 0)
  let g ← rd (pixelAddr w x y 1)
  let b ← rd (pixelAddr w x y 2)
  return ⟨r, g, b⟩

/-- Store the three colour lanes of pixel `(x, y)`. Lane A is not written (R71). -/
def storeRgb (s : State) (x y : Nat) (c : Rgb) : Except Fault State := do
  let s1 ← memWrite s (pixelAddr s.w x y 0) c.r
  let s2 ← memWrite s1 (pixelAddr s.w x y 1) c.g
  memWrite s2 (pixelAddr s.w x y 2) c.b

/-- The error code (R170). -/
def IssueError.code : IssueError → BitVec 4
  | .invalidKernel => 1
  | .dimensionMismatch => 2
  | .illegalFilter => 3
  | .zeroDimension => 4
  | .capacity => 5

/-- What every issue attempt does before its checks: `CMD <- v`, and `DONE`, `ERR`, `ERRCODE` cleared (R110). -/
def beginIssue (v : Word) (s : State) : State :=
  { s with cmd := v, done := false, err := false, errCode := 0 }

/-- `raise E(code)` (R178): `ERR <- 1`, `ERRCODE <- code`, nothing else. The record of R211 is kept beside it. -/
def raiseError (e : IssueError) (s : State) : State :=
  { s with err := true, errCode := e.code, rejected := s.rejected ++ [⟨e, s.position⟩] }

/-- The return from an error, and the other write-1-to-clear flags: `CsrWrite(4, v)` (R29, R179). -/
def ackStatus (v : Word) (s : State) : State :=
  { s with
    done := s.done && !v.getLsbD 1
    err := s.err && !v.getLsbD 2
    errCode := if s.err && v.getLsbD 2 then 0 else s.errCode
    proto := s.proto && !v.getLsbD 3 }

/-- Record an access the engine did not perform (R70). -/
def setProto (s : State) : State := { s with proto := true }

/-- The engine takes over (the end of R110): the cursor is set and `STATE <- BUSY`. -/
def startEngine (i : Instr) (s : State) : State :=
  { s with cur := startCursor i s.w s.h, mode := .busy }

/-- `SNAP[a] <- PM[a]` for every `a < 4*W*H` (R110, R39). -/
def captureSnap (s : State) : State :=
  { s with snap := Memory.copyBelow (imageBytes s.w s.h) s.pm s.snap }

/-- The completion step (R113): `STATE <- IDLE`, `DONE <- 1`. -/
def complete (s : State) : State := { s with mode := .idle, done := true }

/-- The reset event (R200, R43): the engine's state, with the drawn contents of PM and SNAP. The host's own state
stays (DESIGN CHOICE, log 4). -/
def resetEngine (pm snap : Memory) (s : State) : State :=
  { s with
    pm := Memory.draw s.params.pixmemBytes [] pm
    snap := Memory.draw s.params.pixmemBytes [] snap
    ie := false, done := false, err := false, proto := false, errCode := 0
    width := 0, height := 0, len := 0, cmd := 0, mode := .idle, cur := .fin }

/-- An engine operation's result as the outcome of a step. -/
def toOutcome : Except Fault State → Host.Outcome State Fault Refusal
  | .ok s => .next s
  | .error f => .fault f

end Sys2Proof.Machine
end

