-- ==== Sys2Proof/Machine/Flags.lean ====
section
/-! DEFINITION. The flags: the `STATUS` word (spec/10_state.md R29), the interrupt line (R40), the CSRs as the host
reads them (spec/20_memory.md R63). No filter computes a flag (R35). -/

namespace Sys2Proof.Machine

/-- `STATUS.BUSY`: 1 exactly when `STATE = BUSY` (R29). -/
def State.busy (s : State) : Bool := decide (s.mode = .busy)

/-- The `STATUS` word: `ERRCODE` in 11:8, `PROTO` 3, `ERR` 2, `DONE` 1, `BUSY` 0, the rest zero (R29). -/
def statusWord (s : State) : Word :=
  (0 : BitVec 20) ++ s.errCode ++ (0 : BitVec 4) ++ BitVec.ofBool s.proto ++ BitVec.ofBool s.err ++
    BitVec.ofBool s.done ++ BitVec.ofBool s.busy

/-- The `CTRL` word: `IE` in bit 0, the rest zero (R28). -/
def ctrlWord (s : State) : Word := (0 : BitVec 31) ++ BitVec.ofBool s.ie

/-- The interrupt output, a function of state: `irq = CTRL.IE and (STATUS.DONE or STATUS.ERR)` (R40). -/
def irq (s : State) : Bool := s.ie && (s.done || s.err)

/-- The value `CsrRead(n)` returns (R63). Reserved numbers read zero (R34). -/
def csrValue (n : Nat) (s : State) : Word :=
  match n with
  | 0 => Rom.idWord
  | 1 => capsWord s.params.tie
  | 2 => BitVec.ofNat 32 (pixcap s.params)
  | 3 => ctrlWord s
  | 4 => statusWord s
  | 5 => s.width
  | 6 => s.height
  | 7 => s.len
  | 8 => s.cmd
  | _ => 0

end Sys2Proof.Machine
end

