-- ==== Sys2Proof/Machine/Command.lean ====
section
/-! DEFINITION. What every command shares: its issue (spec/40_apply_and_clamp.md R110, spec/60_exceptions.md R170 to
R178) and the engine step that walks the cursor (R111, R113). A command's own part is the colour it computes for a
pixel. -/

namespace Sys2Proof.Machine

/-- `KernelValid(K)`: an odd number of rows, each of that length (R150). -/
def kernelValid {α : Type} (k : List (List α)) : Bool :=
  decide (k.length % 2 = 1) && k.all (fun row => decide (row.length = k.length))

/-- Whether a command is a convolution command, which holds a kernel (R171: "`blur` has no kernel"). -/
def usesKernel : Instr → Bool
  | .sharpen => true
  | .invert | .blackAndWhite | .sepia | .brightness | .contrast | .threshold
  | .hueRotate | .saturate | .colorize | .blur => false

/-- The issue checks of a legal command, in the order of R110 and R177; the first that fails is reported. -/
def issueError (i : Instr) (s : State) : Option IssueError :=
  if usesKernel i && !kernelValid Rom.sharpenK then some .invalidKernel
  else if s.w = 0 ∨ s.h = 0 then some .zeroDimension
  else if imageBytes s.w s.h ≠ s.len.toNat then some .dimensionMismatch
  else if s.params.pixmemBytes < imageBytes s.w s.h then some .capacity
  else none

/-- The issue of a legal command while `STATE = IDLE` (R110). -/
def issue (i : Instr) (s : State) : State :=
  let s1 := beginIssue (encode i) s
  match issueError i s1 with
  | some e => raiseError e s1
  | none => startEngine i (if usesKernel i then captureSnap s1 else s1)

/-- The issue of a word that is no command while `STATE = IDLE` (R93, R173). -/
def issueIllegal (v : Word) (s : State) : State := raiseError .illegalFilter (beginIssue v s)

/-- A command's own part: the colour stored at pixel `(x, y)`, read from the state as it stands. -/
abbrev Colour := Nat → Nat → State → Except Fault Rgb

/-- The engine step at a pixel (R111): read, store the three colour bytes, advance the cursor. -/
def pixelStep (i : Instr) (colour : Colour) (y x : Nat) (s : State) : Except Fault State := do
  let c ← colour x y s
  let t ← storeRgb s x y c
  return setCur (nextCursor i s.w s.h y x) t

/-- `EngineStep` for the command `i` (R111). -/
def engineStep (i : Instr) (colour : Colour) (s : State) : Host.Outcome State Fault Refusal :=
  match s.cur with
  | .fin => .next (complete s)
  | .pix y x =>
    if inScan i s.w s.h y x then toOutcome (pixelStep i colour y x s) else .fault (.cursorOutsideScan y x)

/-- One atomic step of a command: its issue while the engine is IDLE, its next engine step while it is BUSY
(DEDUCED, log 7). -/
def commandStep (i : Instr) (colour : Colour) (s : State) : Host.Outcome State Fault Refusal :=
  match s.mode with
  | .idle => .next (issue i s)
  | .busy => engineStep i colour s

end Sys2Proof.Machine
end

