-- ==== Sys2Proof/Machine/Convolution.lean ====
section
/-! DEFINITION. The convolution engine (spec/42_convolution.md R150 to R160): the two commands `sharpen` and `blur`,
and the model function `Convolve` of an arbitrary kernel. -/

namespace Sys2Proof.Machine

/-- A kernel sum read byte by byte: `acc + sum of value * weight` over the surviving terms, in one channel. -/
def sumTaps (rd : Nat → Except Fault Byte) (w ch : Nat) : Int → List (Tap Int) → Except Fault Int
  | acc, [] => .ok acc
  | acc, tap :: taps => do
    let v ← rd (pixelAddr w tap.x tap.y ch)
    sumTaps rd w ch (acc + (v.toNat : Int) * tap.weight) taps

/-- The surviving terms of the ROM kernel at pixel `(x, y)`, `half = 1` (R154). -/
def sharpenTaps (w h x y : Nat) : List (Tap Int) := kernelTaps w h 1 x y 0 Rom.sharpenK

/-- The colour `sharpen` stores: the kernel sum over the snapshot, channel by channel (R154). -/
def sharpenColour (t : Tie) : Colour := fun x y s => do
  let taps := sharpenTaps s.w s.h x y
  let r ← sumTaps (snapRead s) s.w 0 0 taps
  let g ← sumTaps (snapRead s) s.w 1 0 taps
  let b ← sumTaps (snapRead s) s.w 2 0 taps
  return ⟨sat8 t r 1, sat8 t g 1, sat8 t b 1⟩

/-- The average blur stores in one channel, from PM as it stands (R155). -/
def blurChannel (t : Tie) (x y ch : Nat) (s : State) : Except Fault Byte := do
  let left ← memRead s (pixelAddr s.w (x - 1) y ch)
  let right ← memRead s (pixelAddr s.w (x + 1) y ch)
  let top ← memRead s (pixelAddr s.w x (y - 1) ch)
  let bottom ← memRead s (pixelAddr s.w x (y + 1) ch)
  return sat8 t ((left.toNat : Int) + right.toNat + top.toNat + bottom.toNat) Rom.blurDiv

/-- The colour `blur` stores (R155). The three channels are independent, so all reads may come first (R111;
DEDUCED, log 9). -/
def blurColour (t : Tie) : Colour := fun x y s => do
  let r ← blurChannel t x y 0 s
  let g ← blurChannel t x y 1 s
  let b ← blurChannel t x y 2 s
  return ⟨r, g, b⟩

/-- `sharpen` (kind 9, R154). -/
def execSharpen (s : State) : Host.Outcome State Fault Refusal :=
  commandStep .sharpen (sharpenColour s.params.tie) s

/-- `blur` (kind 10, R155): in place and order-dependent (R156). -/
def execBlur (s : State) : Host.Outcome State Fault Refusal :=
  commandStep .blur (blurColour s.params.tie) s

/-- A kernel of "signed real weights" (R150), as exact rationals. -/
abbrev Kernel := List (List Rat)

/-- The kernel sum of one channel over a byte sequence, exact (R151). -/
def convSum (src : Memory) (w ch : Nat) : Rat → List (Tap Rat) → Rat
  | acc, [] => acc
  | acc, tap :: taps => convSum src w ch (acc + ((src.read (pixelAddr w tap.x tap.y ch)).toNat : Rat) * tap.weight) taps

/-- One colour byte of `Convolve`: `SAT8` of the exact fraction (R151). -/
def convByte (t : Tie) (w h : Nat) (src : Memory) (k : Kernel) (x y ch : Nat) : Byte :=
  let acc := convSum src w ch 0 (kernelTaps w h (k.length / 2) x y 0 k)
  sat8 t acc.num acc.den

/-- The four bytes of one output pixel of `Convolve`; alpha is copied (R151). -/
def convPixel (t : Tie) (w h : Nat) (src : Memory) (k : Kernel) (p : Nat) : List Byte :=
  let x := p % w
  let y := p / w
  [convByte t w h src k x y 0, convByte t w h src k x y 1, convByte t w h src k x y 2, src.read (pixelAddr w x y 3)]

/-- The output pixels of `Convolve` from pixel index `p` on, `n` of them. -/
def convBytes (t : Tie) (w h : Nat) (src : Memory) (k : Kernel) : Nat → Nat → List Byte
  | _, 0 => []
  | p, n + 1 => convPixel t w h src k p ++ convBytes t w h src k (p + 1) n

/-- `Convolve(W, H, S, K)` (R151). An invalid kernel is rejected before any pixel is touched (R150, R171). -/
def convolve (t : Tie) (w h : Nat) (src : Memory) (k : Kernel) : Except IssueError (List Byte) :=
  if kernelValid k then .ok (convBytes t w h src k 0 (w * h)) else .error .invalidKernel

/-- The ROM kernel as rational weights. -/
def sharpenKernel : Kernel := Rom.sharpenK.map (fun row => row.map (fun k => (k : Rat)))

end Sys2Proof.Machine
end

