-- ==== Sys2Proof/Machine/PointFilters.lean ====
section
/-! DEFINITION. The nine point filters (spec/41_point_filters.md R130 to R140): the pure function of a pixel's colour
lanes, and the command that applies it at the cursor. -/

namespace Sys2Proof.Machine

/-- A channel value as an exact integer (R8). -/
def chan (b : Byte) : Int := b.toNat

/-- `s = r + g + b` (R130). -/
def lumaSum (p : Rgb) : Int := chan p.r + chan p.g + chan p.b

/-- Apply one function to the three lanes, each from the same lane (R123). -/
def perLane (f : Byte → Byte) (p : Rgb) : Rgb := ⟨f p.r, f p.g, f p.b⟩

/-- The weighted sum of the three lanes. -/
def weighted (k : Weights) (p : Rgb) : Int := k.r * chan p.r + k.g * chan p.g + k.b * chan p.b

/-- `F_0`, invert (R131). -/
def filterInvert (t : Tie) (p : Rgb) : Rgb := perLane (fun c => sat8 t (Rom.invMax - chan c) 1) p

/-- `F_1`, blackAndWhite (R132): the average is rounded only at the store. -/
def filterBlackAndWhite (t : Tie) (p : Rgb) : Rgb :=
  let v := sat8 t (lumaSum p) Rom.avgDiv
  ⟨v, v, v⟩

/-- `F_2`, sepia (R133). -/
def filterSepia (t : Tie) (p : Rgb) : Rgb :=
  ⟨sat8 t (weighted Rom.sepiaR p) 100, sat8 t (weighted Rom.sepiaG p) 100, sat8 t (weighted Rom.sepiaB p) 100⟩

/-- `F_3`, brightness (R134): `c * 6/5`. -/
def filterBrightness (t : Tie) (p : Rgb) : Rgb :=
  perLane (fun c => sat8 t (Rom.factorNum * chan c) Rom.factorDen) p

/-- `F_4`, contrast (R135): `(c - 128) * 6/5 + 128`, over the denominator 5. -/
def filterContrast (t : Tie) (p : Rgb) : Rgb :=
  perLane (fun c => sat8 t (Rom.factorNum * (chan c - Rom.contrMid) + Rom.factorDen * Rom.contrMid) Rom.factorDen) p

/-- `F_5`, threshold (R136): the comparison is on the exact average, `s/3 < 150`. -/
def filterThreshold (p : Rgb) : Rgb :=
  let v := if lumaSum p < Rom.avgDiv * Rom.thrCut then Rom.thrLo else Rom.thrHi
  ⟨v, v, v⟩

/-- `floor(n * sqrt(3))`, that is `isqrt(3*n*n)` (R137). -/
def floorSqrt3 (b : Byte) : Int := isqrt (3 * b.toNat * b.toNat)

/-- `F_6`, hueRotate (R137): red and green coupled, both from the original values, blue copied. -/
def filterHueRotate (t : Tie) (p : Rgb) : Rgb :=
  ⟨toByte ((floorSqrt3 p.r - chan p.g + 1) / 2),
   if 1 ≤ p.g.toNat then toByte ((floorSqrt3 p.g + chan p.r + 1) / 2) else sat8 t (chan p.r) 2,
   p.b⟩

/-- `F_7`, saturate (R138): `avg + (c - avg) * 6/5` with the unrounded average, over the denominator 15. -/
def filterSaturate (t : Tie) (p : Rgb) : Rgb :=
  perLane (fun c => sat8 t (Rom.factorNum * Rom.avgDiv * chan c - lumaSum p) (Rom.factorDen * Rom.avgDiv)) p

/-- `F_8`, colorize (R139): the average of each lane with its tint. -/
def filterColorize (t : Tie) (p : Rgb) : Rgb :=
  ⟨sat8 t (chan p.r + Rom.tint.r) 2, sat8 t (chan p.g + Rom.tint.g) 2, sat8 t (chan p.b + Rom.tint.b) 2⟩

/-- The colour a point filter stores: its function of the pixel's own lanes (R130). -/
def pointColour (f : Rgb → Rgb) : Colour := fun x y s => do
  let p ← loadRgb (memRead s) s.w x y
  return f p

/-- `invert` (kind 0, R131). -/
def execInvert (s : State) : Host.Outcome State Fault Refusal :=
  commandStep .invert (pointColour (filterInvert s.params.tie)) s

/-- `blackAndWhite` (kind 1, R132). -/
def execBlackAndWhite (s : State) : Host.Outcome State Fault Refusal :=
  commandStep .blackAndWhite (pointColour (filterBlackAndWhite s.params.tie)) s

/-- `sepia` (kind 2, R133). -/
def execSepia (s : State) : Host.Outcome State Fault Refusal :=
  commandStep .sepia (pointColour (filterSepia s.params.tie)) s

/-- `brightness` (kind 3, R134). -/
def execBrightness (s : State) : Host.Outcome State Fault Refusal :=
  commandStep .brightness (pointColour (filterBrightness s.params.tie)) s

/-- `contrast` (kind 4, R135). -/
def execContrast (s : State) : Host.Outcome State Fault Refusal :=
  commandStep .contrast (pointColour (filterContrast s.params.tie)) s

/-- `threshold` (kind 5, R136). -/
def execThreshold (s : State) : Host.Outcome State Fault Refusal :=
  commandStep .threshold (pointColour filterThreshold) s

/-- `hueRotate` (kind 6, R137). -/
def execHueRotate (s : State) : Host.Outcome State Fault Refusal :=
  commandStep .hueRotate (pointColour (filterHueRotate s.params.tie)) s

/-- `saturate` (kind 7, R138). -/
def execSaturate (s : State) : Host.Outcome State Fault Refusal :=
  commandStep .saturate (pointColour (filterSaturate s.params.tie)) s

/-- `colorize` (kind 8, R139). -/
def execColorize (s : State) : Host.Outcome State Fault Refusal :=
  commandStep .colorize (pointColour (filterColorize s.params.tie)) s

end Sys2Proof.Machine
end

