-- ==== Sys2Proof/Machine/Dispatch.lean ====
section
/-! DEFINITION. One atomic step of a command, dispatched on the command: its issue while the engine is IDLE
(spec/40_apply_and_clamp.md R110), its next engine step while it is BUSY (R111). -/

namespace Sys2Proof.Machine

def exec (i : Instr) (s : State) : Host.Outcome State Fault Refusal :=
  match i with
  | .invert => Sys2Proof.Machine.execInvert s
  | .blackAndWhite => Sys2Proof.Machine.execBlackAndWhite s
  | .sepia => Sys2Proof.Machine.execSepia s
  | .brightness => Sys2Proof.Machine.execBrightness s
  | .contrast => Sys2Proof.Machine.execContrast s
  | .threshold => Sys2Proof.Machine.execThreshold s
  | .hueRotate => Sys2Proof.Machine.execHueRotate s
  | .saturate => Sys2Proof.Machine.execSaturate s
  | .colorize => Sys2Proof.Machine.execColorize s
  | .sharpen => Sys2Proof.Machine.execSharpen s
  | .blur => Sys2Proof.Machine.execBlur s

end Sys2Proof.Machine
end

