-- ==== Sys2Proof/Machine/HostPort.lean ====
section
/-! DEFINITION. The four host access primitives (spec/20_memory.md R63 to R66) with the ownership interlock (R70), and
the statements of a host script (spec/30_encoding.md R96, R97). -/

namespace Sys2Proof.Machine

/-- A host write to a register the engine owns while BUSY: then it is not performed and sets `PROTO` (R70). -/
def ownedWrite (performed : State) (s : State) : State :=
  match s.mode with
  | .idle => performed
  | .busy => setProto s

/-- A write of `CMD`: `CMD <- v` and the issue in the same step while IDLE, dropped and flagged while BUSY (R33, R64). -/
def writeCmd (v : Word) (s : State) : Host.Outcome State Fault Refusal :=
  match s.mode with
  | .idle =>
    match decode v with
    | .ok i => exec i s
    | .error _ => .next (issueIllegal v s)
  | .busy => .next (setProto s)

/-- `CsrWrite(n, v)` (R64). -/
def csrWrite (n : Nat) (v : Word) (s : State) : Host.Outcome State Fault Refusal :=
  match n with
  | 3 => .next { s with ie := v.getLsbD 0 }
  | 4 => .next (ackStatus v s)
  | 5 => .next (ownedWrite { s with width := v } s)
  | 6 => .next (ownedWrite { s with height := v } s)
  | 7 => .next (ownedWrite { s with len := v } s)
  | 8 => writeCmd v s
  | _ => .next s

/-- Whether the engine performs a host access to pixel word `p`: it is IDLE and `p < PIXCAP` (R65, R66). -/
def pixPerformed (p : Nat) (s : State) : Bool := !s.busy && decide (p < pixcap s.params)

/-- The value `PixRead(p)` returns (R65). -/
def pixValue (p : Nat) (s : State) : Word := if pixPerformed p s then s.pm.readWord (4 * p) else 0

/-- What `PixRead(p)` does to the state: nothing, or `PROTO` (R65). -/
def pixReadState (p : Nat) (s : State) : State := if pixPerformed p s then s else setProto s

/-- `PixWrite(p, v)` (R66). -/
def pixWrite (p : Nat) (v : Word) (s : State) : State :=
  if pixPerformed p s then setPm (s.pm.writeWord (4 * p) v) s else setProto s

/-- The host receives the value of a read. -/
def receive (v : Word) (s : State) : State := { s with reads := s.reads ++ [v] }

/-- The host's next statement becomes the current one. -/
def takeStmt (rest : List HostStmt) (s : State) : State := { s with script := rest, position := s.position + 1 }

/-- One host step: the next statement of the script. `wait` reads `STATUS` and stays until bit 0 reads 0 (R97). -/
def hostStep (s : State) : Host.Outcome State Fault Refusal :=
  match s.script with
  | [] => .next s
  | .csrRead n :: rest => .next (receive (csrValue n s) (takeStmt rest s))
  | .csrWrite n v :: rest => csrWrite n v (takeStmt rest s)
  | .pixRead p :: rest => .next (receive (pixValue p s) (pixReadState p (takeStmt rest s)))
  | .pixWrite p v :: rest => .next (pixWrite p v (takeStmt rest s))
  | .wait :: rest =>
    if (statusWord s).getLsbD 0 then .next (receive (csrValue 4 s) s)
    else .next (receive (csrValue 4 s) (takeStmt rest s))

end Sys2Proof.Machine
end

