-- ==== Sys2Proof/Machine/Script.lean ====
section
/-! DEFINITION. The pseudo-instructions of a host script (spec/30_encoding.md R97) and `list_filters`
(spec/40_apply_and_clamp.md R120). `wait` is a statement of its own (HostStmt.wait). -/

namespace Sys2Proof.Machine

/-- `apply NAME` (R97). -/
def stmtApply (i : Instr) : List HostStmt := [.csrWrite 8 (encode i)]

/-- `ack m` (R97): write 1 to clear. -/
def stmtAck (m : Word) : List HostStmt := [.csrWrite 4 m]

/-- `image w, h` (R97): "requires `4*w*h < 2^32`", else there is no expansion. Where one of the two is 0 and the other is
`2^32` or more that condition holds, but the number does not fit the 32 bits of `csrw` data (R96) and the spec gives no
expansion: the model writes its low 32 bits (DESIGN CHOICE, log 13). -/
def stmtImage (w h : Nat) : Option (List HostStmt) :=
  if imageBytes w h < 4294967296 then
    some [.csrWrite 5 (BitVec.ofNat 32 w), .csrWrite 6 (BitVec.ofNat 32 h), .csrWrite 7 (BitVec.ofNat 32 (imageBytes w h))]
  else none

/-- The pixel word of `(r, g, b, a)`: little-endian, R in bits 7:0 (R62). -/
def pixelWord (r g b a : Byte) : Word := a ++ b ++ g ++ r

/-- `pixel p, (r,g,b,a)` (R97). -/
def stmtPixel (p : Nat) (r g b a : Byte) : List HostStmt := [.pixWrite p (pixelWord r g b a)]

/-- `listfilters` (R97). -/
def stmtListFilters : List HostStmt := [.csrRead 1]

/-- The kinds whose codes are the given numbers. -/
def kindsOf : List Nat → List Instr
  | [] => []
  | k :: ks =>
    match decode (BitVec.ofNat 32 k) with
    | .ok i => i :: kindsOf ks
    | .error _ => kindsOf ks

/-- `list_filters()`: the kinds of codes `0 .. CAPS[7:0] - 1`, from the value read from `CAPS` (R120). -/
def listFilters (caps : Word) : List Instr := kindsOf (List.range (caps.extractLsb' 0 8).toNat)

end Sys2Proof.Machine
end

