-- ==== Sys2Proof/Machine/Step.lean ====
section
/-! DEFINITION. The step of the machine: the schedule's next agent takes one atomic step (spec/00_scope.md R10). -/

namespace Sys2Proof.Machine

/-- The agent of the next step. With an empty schedule a busy engine goes first (log 5). -/
def nextTurn (s : State) : Turn :=
  match s.turns with
  | t :: _ => t
  | [] => if s.busy then .engine else .host

/-- The schedule moves on. -/
def takeTurn (s : State) : State := { s with turns := s.turns.tail }

/-- The engine agent: "The engine agent has a step exactly when `STATE = BUSY`" (R111); otherwise nothing happens. The
completion step does not look at the command. -/
def engineTurn (s : State) : Host.Outcome State Fault Refusal :=
  match s.mode with
  | .idle => .next s
  | .busy =>
    match decodeKind s.cmd with
    | .ok i => exec i s
    | .error _ =>
      match s.cur with
      | .fin => .next (complete s)
      | .pix _ _ => .fault (.busyWithoutCommand s.cmd)

/-- One step of the machine. -/
def step (s : State) : Host.Outcome State Fault Refusal :=
  match nextTurn s with
  | .host => hostStep (takeTurn s)
  | .engine => engineTurn (takeTurn s)
  | .reset pm snap => .next (resetEngine pm snap (takeTurn s))

/-- `s` with the engine ready to accept a command and the word next to be written to `CMD` by the host: the very next
step issues it (log 6). -/
def State.withFetchWord (s : State) (nbits w : Nat) : State :=
  { s with
    mode := .idle
    script := .csrWrite 8 (BitVec.ofNat 32 (tableWord nbits w)) :: s.script
    turns := .host :: s.turns }

end Sys2Proof.Machine
end

