-- ==== Sys2Proof/Machine/Apply.lean ====
section
/-! DEFINITION. The command-level meaning `Apply(k, W, H, P)` of spec/40_apply_and_clamp.md R112: a pure function of
the image, defined without the engine's cursor, its registers and its faults. -/

namespace Sys2Proof.Machine

/-- The positions of a scan in its order, row-major with `x` fastest (R37): pairs `(y, x)`. -/
def scanOrder (i : Instr) (w h : Nat) : List (Nat × Nat) :=
  if scansInterior i then
    (List.range' 1 (h - 2)).flatMap (fun y => (List.range' 1 (w - 2)).map (fun x => (y, x)))
  else (List.range h).flatMap (fun y => (List.range w).map (fun x => (y, x)))

/-- The number of engine steps of a command, the completion step included (R111). -/
def stepCount (i : Instr) (w h : Nat) : Nat :=
  if scansInterior i then (w - 2) * (h - 2) + 1 else w * h + 1

/-- The colour lanes of a pixel of an image. -/
def rgbAt (m : Memory) (w x y : Nat) : Rgb :=
  ⟨m.read (pixelAddr w x y 0), m.read (pixelAddr w x y 1), m.read (pixelAddr w x y 2)⟩

/-- The function `F_k` of a point filter (R131 to R139); the two neighbourhood filters have none. -/
def pointFunction (t : Tie) : Instr → Option (Rgb → Rgb)
  | .invert => some (filterInvert t)
  | .blackAndWhite => some (filterBlackAndWhite t)
  | .sepia => some (filterSepia t)
  | .brightness => some (filterBrightness t)
  | .contrast => some (filterContrast t)
  | .threshold => some filterThreshold
  | .hueRotate => some (filterHueRotate t)
  | .saturate => some (filterSaturate t)
  | .colorize => some (filterColorize t)
  | .sharpen => none
  | .blur => none

/-- The kernel sum of `sharpen` in one channel of the original image (R154). -/
def sharpenSum (src : Memory) (w h x y ch : Nat) : Int :=
  ((sharpenTaps w h x y).map (fun tap => ((src.read (pixelAddr w tap.x tap.y ch)).toNat : Int) * tap.weight)).sum

/-- One colour byte of `sharpen`. -/
def sharpenByte (t : Tie) (src : Memory) (w h x y ch : Nat) : Byte := sat8 t (sharpenSum src w h x y ch) 1

/-- The four-neighbour sum of `blur` in one channel of the image as it stands (R155). -/
def blurSum (m : Memory) (w x y ch : Nat) : Int :=
  (m.read (pixelAddr w (x - 1) y ch)).toNat + (m.read (pixelAddr w (x + 1) y ch)).toNat +
    (m.read (pixelAddr w x (y - 1) ch)).toNat + (m.read (pixelAddr w x (y + 1) ch)).toNat

/-- One colour byte of `blur`. -/
def blurByte (t : Tie) (m : Memory) (w x y ch : Nat) : Byte := sat8 t (blurSum m w x y ch) 4

/-- The colour a command stores at a pixel: from the image `m` as it stands and the original image `src`. -/
def pixelColour (t : Tie) (i : Instr) (w h : Nat) (src m : Memory) (y x : Nat) : Rgb :=
  match i with
  | .sharpen => ⟨sharpenByte t src w h x y 0, sharpenByte t src w h x y 1, sharpenByte t src w h x y 2⟩
  | .blur => ⟨blurByte t m w x y 0, blurByte t m w x y 1, blurByte t m w x y 2⟩
  | .invert | .blackAndWhite | .sepia | .brightness | .contrast | .threshold
  | .hueRotate | .saturate | .colorize =>
    match pointFunction t i with
    | some f => f (rgbAt m w x y)
    | none => rgbAt m w x y

/-- The image with the colour lanes of one pixel replaced. -/
def putRgb (m : Memory) (w x y : Nat) (c : Rgb) : Memory :=
  ((m.write (pixelAddr w x y 0) c.r).write (pixelAddr w x y 1) c.g).write (pixelAddr w x y 2) c.b

/-- Process the listed positions in order. -/
def applyAt (t : Tie) (i : Instr) (w h : Nat) (src : Memory) : Memory → List (Nat × Nat) → Memory
  | m, [] => m
  | m, p :: ps => applyAt t i w h src (putRgb m w p.2 p.1 (pixelColour t i w h src m p.1 p.2)) ps

/-- `Apply(k, W, H, P)` (R112), on a PM that holds `P` in its first `4*W*H` bytes; no other byte is changed. -/
def applyCommand (t : Tie) (i : Instr) (w h : Nat) (p : Memory) : Memory :=
  applyAt t i w h p p (scanOrder i w h)

end Sys2Proof.Machine
end

