-- ==== Sys2Proof/Machine/Platform.lean ====
section
/-! DEFINITION. A platform of `N_ENGINES` engines (spec/20_memory.md R77, spec/60_exceptions.md R185): independent
copies, each with its own parameters, memories, registers, host script and schedule. -/

namespace Sys2Proof.Machine

/-- The engines of a platform. There is always a first one: `N_ENGINES` is "OPEN, >= 1" (R7). -/
structure Platform where
  first : State
  others : List State
deriving DecidableEq, Repr

/-- The engines, numbered from 0. -/
def Platform.engines (p : Platform) : List State := p.first :: p.others

/-- `N_ENGINES` (R7; DESIGN CHOICE, log 11). -/
def Platform.nEngines (p : Platform) : Nat := p.engines.length

/-- A platform right after reset, one engine for each set of parameters. -/
def Platform.resetWith (p : Params) (ps : List Params) : Platform :=
  ⟨State.resetWith p [] [], ps.map (fun q => State.resetWith q [] [])⟩

/-- Engine number `e` takes a new state. -/
def Platform.setEngine (e : Nat) (t : State) (p : Platform) : Platform :=
  match e with
  | 0 => { p with first := t }
  | k + 1 => { p with others := p.others.set k t }

/-- One step of engine number `e`. -/
def platformStep (e : Nat) (p : Platform) : Host.Outcome Platform Fault Refusal :=
  match p.engines[e]? with
  | none => .next p
  | some s =>
    match step s with
    | .next t => .next (p.setEngine e t)
    | .fault f => .fault f
    | .refused r => .refused r

end Sys2Proof.Machine
end

