-- ==== Sys2Proof/Safety.lean ====
section
/-! DEFINITION. The invariant of the machine (spec/10_state.md R29, R37, spec/60_exceptions.md R170), launch premises,
the end of a run and what went wrong in it (spec/70_reset_and_hazards.md R211, R213). -/

namespace Sys2Proof.Machine

/-- The two memories are in canonical form and lie in the address space (R60). -/
structure State.MemoryOk (s : State) : Prop where
  pmWf : s.pm.wf
  pmBelow : s.pm.below s.params.pixmemBytes
  snapWf : s.snap.wf
  snapBelow : s.snap.below s.params.pixmemBytes

/-- The invariants of the status flags: "`BUSY`, `DONE` and `ERR` are never two at once set; `ERRCODE != 0` exactly
when `ERR = 1`" (R29), and `ERRCODE` "ranges over 0 to 5" (I16). -/
structure State.FlagsOk (s : State) : Prop where
  busyDone : ¬ (s.mode = .busy ∧ s.done = true)
  busyErr : ¬ (s.mode = .busy ∧ s.err = true)
  doneErr : ¬ (s.done = true ∧ s.err = true)
  codeErr : s.errCode ≠ 0 ↔ s.err = true
  codeRange : s.errCode.toNat ≤ 5

/-- The cursor is at the end or at a position of the command's scan (R37). -/
def cursorOk (i : Instr) (w h : Nat) : Cursor → Prop
  | .fin => True
  | .pix y x => inScan i w h y x = true

/-- A busy engine runs a command that passed the issue checks, with its cursor in the scan (R37, R110). -/
structure State.Running (i : Instr) (s : State) : Prop where
  command : s.cmd = encode i
  widthPos : 0 < s.w
  heightPos : 0 < s.h
  lengthOk : imageBytes s.w s.h = s.len.toNat
  fits : imageBytes s.w s.h ≤ s.params.pixmemBytes
  cursor : cursorOk i s.w s.h s.cur

/-- The invariant every step keeps. -/
structure State.Inv (s : State) : Prop where
  params : s.params.WellFormed
  memory : s.MemoryOk
  flags : s.FlagsOk
  running : s.mode = .busy → ∃ i, s.Running i

/-- The run of a host script is over (R211). -/
def State.Over (s : State) : Prop := s.script = [] ∧ s.mode = .idle

/-- "It has *gone wrong* if at its end `STATUS.PROTO = 1`, or `STATUS.ERR = 1` where the script did not intend an error"
(R211). `intended` are the positions of the statements whose issue the script means to be rejected; the issue that left
`ERR` set is the last one of the record (DEDUCED, log 14). -/
def State.WentWrong (intended : List Nat) (s : State) : Prop :=
  s.proto = true ∨ (s.err = true ∧ ∀ r, s.rejected.getLast? = some r → r.position ∉ intended)

/-- "No command was rejected", said over the never-cleared record and not over the final `STATUS` (R211). -/
def State.NoneRejected (s : State) : Prop := s.rejected = []

/-- A set `ERR` is that of the last rejected issue of the record, whose code `ERRCODE` holds (R29, R178, R211). -/
def State.ErrRecorded (s : State) : Prop :=
  s.err = true → ∃ r, s.rejected.getLast? = some r ∧ s.errCode = r.error.code

/-- The same machine, mapped elsewhere by its platform: other values of `CSR_BASE` and `PIX_BASE` (R60). -/
def State.mappedAt (csrBase pixBase : Nat) (s : State) : State :=
  { s with params := { s.params with csrBase := csrBase, pixBase := pixBase } }

/-- The launch premises on the state (R213 (1), (2), (3)): IDLE, `STATUS = 0`, no reset in the schedule, and the script
at its start, with nothing recorded yet (R211). -/
structure State.Launch (s : State) : Prop where
  idle : s.mode = .idle
  status : statusWord s = 0
  noReset : ∀ pm snap, Turn.reset pm snap ∉ s.turns
  start : s.position = 0
  clean : s.NoneRejected

/-- The geometry registers describe an image that the issue accepts (R110, R213 (5)). -/
structure State.GeometryOk (s : State) : Prop where
  widthPos : 0 < s.w
  heightPos : 0 < s.h
  lengthOk : imageBytes s.w s.h = s.len.toNat
  fits : imageBytes s.w s.h ≤ s.params.pixmemBytes

/-- The engine is about to process pixel `(x, y)` with command `i`: BUSY, the cursor at that position of the scan, the
image inside PM, PM in canonical form. -/
structure State.AtPixel (i : Instr) (s : State) (y x : Nat) : Prop where
  busy : s.mode = .busy
  cursor : s.cur = .pix y x
  scan : inScan i s.w s.h y x = true
  fits : imageBytes s.w s.h ≤ s.params.pixmemBytes
  canonical : s.pm.wf

/-- The frame of an engine step at a pixel: only PM and the cursor differ, and in PM only the pixel's three colour bytes
(R71, R111). -/
structure PixelFrame (i : Instr) (s t : State) (y x : Nat) : Prop where
  others : t = setCur (nextCursor i s.w s.h y x) (setPm t.pm s)
  bytes : ∀ a, (a < pixelAddr s.w x y 0 ∨ pixelAddr s.w x y 2 < a) → t.pm.read a = s.pm.read a

/-- At every pixel of its scan the command answers a next state in which the pixel's colour lanes are the given
function of `TIE` and of the lanes before, with the frame of a pixel step. -/
def FilterAt (i : Instr) (f : Tie → Rgb → Rgb) : Prop :=
  ∀ (s : State) (y x : Nat), s.AtPixel i y x →
    ∃ t, exec i s = .next t ∧ PixelFrame i s t y x ∧ rgbAt t.pm s.w x y = f s.params.tie (rgbAt s.pm s.w x y)

/-- `n` steps of the machine. -/
def run (n : Nat) (s : State) : Host.Outcome State Fault Refusal := Host.Core.run Sys2Proof.core n s

/-- `n` steps of one command: its issue from an IDLE engine, then its engine steps, with no host step between. -/
def execTimes (i : Instr) : Nat → State → Host.Outcome State Fault Refusal
  | 0, s => .next s
  | n + 1, s =>
    match exec i s with
    | .next t => execTimes i n t
    | .fault f => .fault f
    | .refused r => .refused r

/-- Change the next state, if there is one. -/
def mapNext (f : State → State) : Host.Outcome State Fault Refusal → Host.Outcome State Fault Refusal
  | .next s => .next (f s)
  | .fault r => .fault r
  | .refused r => .refused r

/-- A script that waits after every command before it touches PM or the four owned registers, and names only pixel
words PM has (R70, R203); `pending` says that a command may still be running. -/
def Disciplined (p : Params) : Bool → List HostStmt → Prop
  | _, [] => True
  | _, .wait :: rest => Disciplined p false rest
  | pending, .csrRead _ :: rest => Disciplined p pending rest
  | pending, .csrWrite n _ :: rest =>
    if n = 8 then pending = false ∧ Disciplined p true rest
    else if n = 5 ∨ n = 6 ∨ n = 7 then pending = false ∧ Disciplined p pending rest
    else Disciplined p pending rest
  | pending, .pixRead q :: rest => pending = false ∧ q < pixcap p ∧ Disciplined p pending rest
  | pending, .pixWrite q _ :: rest => pending = false ∧ q < pixcap p ∧ Disciplined p pending rest

/-- The state a host statement acts on: the schedule and the script have moved on. -/
def afterTake (rest : List HostStmt) (s : State) : State := takeStmt rest (takeTurn s)

/-- The number of in-range 4-neighbours of a pixel (R158). -/
def neighbours4 (w h x y : Nat) : Nat :=
  (if 0 < y then 1 else 0) + (if y + 1 < h then 1 else 0) + (if 0 < x then 1 else 0) + (if x + 1 < w then 1 else 0)

/-- The exact kernel sum of `Convolve` as the spec writes it: over all `ky`, `kx`, the terms whose coordinates are in
range (R151). -/
def kernelSum (w h : Nat) (src : Memory) (k : Kernel) (x y ch : Nat) : Rat :=
  ∑ ky ∈ Finset.range k.length, ∑ kx ∈ Finset.range k.length,
    if (k.length / 2 ≤ y + ky ∧ y + ky - k.length / 2 < h) ∧ (k.length / 2 ≤ x + kx ∧ x + kx - k.length / 2 < w) then
      ((src.read (4 * ((y + ky - k.length / 2) * w + (x + kx - k.length / 2)) + ch)).toNat : Rat) * (k.getD ky []).getD kx 0
    else 0

end Sys2Proof.Machine
end

