-- ==== Sys2Proof/Certificates/Slice0/Obligations.lean ====
section
/-! DEFINITION. The statements about the model, each with the rules of spec/ it formalises. A free name `s` ranges over
every state, so over every value of the open parameters `TIE` and `PIXMEM_BYTES` and over every schedule. -/

open Sys2Proof Sys2Proof.Machine

/-! ### Encoding -/

/-- R92: the eleven command words, their kinds and identifiers; a decoder matches the whole word. -/
def Obligations.CommandWordsDecode : Prop :=
  (decode 0x00000000 = .ok .invert ∧ mnemonic .invert = "invert") ∧
  (decode 0x00000001 = .ok .blackAndWhite ∧ mnemonic .blackAndWhite = "blackAndWhite") ∧
  (decode 0x00000002 = .ok .sepia ∧ mnemonic .sepia = "sepia") ∧
  (decode 0x00000003 = .ok .brightness ∧ mnemonic .brightness = "brightness") ∧
  (decode 0x00000004 = .ok .contrast ∧ mnemonic .contrast = "contrast") ∧
  (decode 0x00000005 = .ok .threshold ∧ mnemonic .threshold = "threshold") ∧
  (decode 0x00000006 = .ok .hueRotate ∧ mnemonic .hueRotate = "hueRotate") ∧
  (decode 0x00000007 = .ok .saturate ∧ mnemonic .saturate = "saturate") ∧
  (decode 0x00000008 = .ok .colorize ∧ mnemonic .colorize = "colorize") ∧
  (decode 0x00000009 = .ok .sharpen ∧ mnemonic .sharpen = "sharpen") ∧
  (decode 0x0000000A = .ok .blur ∧ mnemonic .blur = "blur") ∧
  ∀ (w : Word) (i : Instr), decode w = .ok i → w = encode i

/-- R90, R93: over all 2^32 words the decoder accepts exactly the encoder's words, and rejects every other word by the
field that is wrong. The engine's reading of the field `KIND` alone agrees with it on command words. -/
def Obligations.DecodeAcceptsExactlyCommandWords : Prop :=
  (∀ (w : Word) (i : Instr), decode w = .ok i ↔ w = encode i) ∧
  (∀ w : Word, w.toNat / 256 ≠ 0 → decode w = .error .upperBitsSet) ∧
  (∀ w : Word, w.toNat / 256 = 0 → 11 ≤ w.toNat % 256 → decode w = .error .unknownKind) ∧
  (∀ (w : Word) (i : Instr), decodeKind w = .ok i ↔ w.toNat % 256 = (kindCode i).toNat)

/-! ### Reset, the invariant, the absence of faults -/

/-- R43, R200: a reset turn, from any state, leaves the reset values. The contents of PM and SNAP are those the reset
draws. State.reset has the same registers. -/
def Obligations.ResetLeavesResetValues : Prop :=
  (∀ (s : State) (pm snap : Memory), nextTurn s = .reset pm snap →
    ∃ t, step s = .next t ∧
      csrValue 0 t = 0x50434301 ∧
      (t.params.tie = .even → csrValue 1 t = 0x0000830B) ∧ (t.params.tie = .up → csrValue 1 t = 0x0001830B) ∧
      (t.params.tie = .away → csrValue 1 t = 0x0002830B) ∧
      csrValue 2 t = BitVec.ofNat 32 (s.params.pixmemBytes / 4) ∧
      (∀ n, 3 ≤ n → csrValue n t = 0) ∧ t.mode = .idle ∧ t.cur = .fin ∧ irq t = false ∧
      (pm.wf → ∀ a, a < s.params.pixmemBytes → t.pm.read a = pm.read a) ∧
      (snap.wf → ∀ a, a < s.params.pixmemBytes → t.snap.read a = snap.read a)) ∧
  (csrValue 0 State.reset = 0x50434301 ∧ csrValue 1 State.reset = 0x0000830B ∧
    (∀ n, 3 ≤ n → csrValue n State.reset = 0) ∧ State.reset.mode = .idle ∧ State.reset.cur = .fin ∧
    irq State.reset = false)

/-- The model's choice (log 4): a reset turn leaves the parameters, the host's script, the values it has read and the
record of rejected issues, and takes itself off the schedule. -/
def Obligations.ResetKeepsHostSide : Prop :=
  ∀ (s : State) (pm snap : Memory), nextTurn s = .reset pm snap →
    ∃ t, step s = .next t ∧ t.params = s.params ∧ t.script = s.script ∧ t.position = s.position ∧ t.reads = s.reads ∧
      t.rejected = s.rejected ∧ t.turns = s.turns.tail

/-- The invariant holds after reset. -/
def Obligations.ResetStateMeetsInvariant : Prop :=
  State.reset.Inv ∧ ∀ p : Params, p.WellFormed → (State.resetWith p [] []).Inv

/-- R29, R37, R60, R170: every step of every state keeps the invariant: canonical memories inside the address space, the
flag invariants of R29, and a busy engine running a command that passed the issue checks with its cursor in the scan. -/
def Obligations.EveryStepKeepsInvariant : Prop :=
  ∀ s t : State, s.Inv → step s = .next t → t.Inv

/-- R111, R159, R176: from a state that meets the invariant no step faults or is refused. -/
def Obligations.StepsNeverFail : Prop :=
  ∀ s : State, s.Inv → ∃ t, step s = .next t

/-- R42: no step changes the parameters. -/
def Obligations.StepsKeepParameters : Prop :=
  ∀ s t : State, step s = .next t → t.params = s.params

/-! ### The step runs the decoded instruction -/

/-- A host write of a command word to `CMD` while IDLE is exec of the command it decodes to, on the state after the
statement is taken; an engine turn while BUSY is exec of the command in `CMD`, on the state after the turn is taken;
withFetchWord makes the very next step the first of these. -/
def Obligations.StepRunsDecodedInstruction : Prop :=
  (∀ (s : State) (v : Word) (rest : List HostStmt) (i : Instr),
    nextTurn s = .host → s.script = .csrWrite 8 v :: rest → s.mode = .idle → decode v = .ok i →
      step s = exec i (afterTake rest s)) ∧
  (∀ (s : State) (i : Instr), nextTurn s = .engine → s.mode = .busy → decode s.cmd = .ok i →
      step s = exec i (takeTurn s)) ∧
  (∀ (s : State) (w : Nat) (i : Instr), decodeTableWord 32 w = some i → w < 4294967296 →
      step (s.withFetchWord 32 w) = exec i (takeStmt s.script { s with mode := .idle }))

/-! ### The host port -/

/-- R63: what each CSR read returns, in any `STATE`, and that a read has no side effect on the engine. -/
def Obligations.CsrReadsReturnRegisters : Prop :=
  (∀ s : State,
    csrValue 0 s = 0x50434301 ∧
    csrValue 1 s = BitVec.ofNat 32 (0x830B + 0x10000 * (match s.params.tie with | .even => 0 | .up => 1 | .away => 2)) ∧
    csrValue 2 s = BitVec.ofNat 32 (s.params.pixmemBytes / 4) ∧
    csrValue 3 s = (if s.ie then 1 else 0) ∧
    ((csrValue 4 s).getLsbD 0 = decide (s.mode = .busy) ∧ (csrValue 4 s).getLsbD 1 = s.done ∧
      (csrValue 4 s).getLsbD 2 = s.err ∧ (csrValue 4 s).getLsbD 3 = s.proto ∧ (csrValue 4 s).extractLsb' 4 4 = 0 ∧
      (csrValue 4 s).extractLsb' 8 4 = s.errCode ∧ (csrValue 4 s).extractLsb' 12 20 = 0) ∧
    csrValue 5 s = s.width ∧ csrValue 6 s = s.height ∧ csrValue 7 s = s.len ∧ csrValue 8 s = s.cmd ∧
    ∀ n, 9 ≤ n → csrValue n s = 0) ∧
  (∀ (s : State) (n : Nat) (rest : List HostStmt), nextTurn s = .host → s.script = .csrRead n :: rest →
    step s = .next { afterTake rest s with reads := s.reads ++ [csrValue n s] })

/-- R64: what each CSR write does; the issue of a command word is exec's, that of any other word is the rejection
R173 gives. -/
def Obligations.CsrWritesActOnRegisters : Prop :=
  ∀ (s : State) (n : Nat) (v : Word) (rest : List HostStmt),
    nextTurn s = .host → s.script = .csrWrite n v :: rest →
      (n ≤ 2 ∨ 9 ≤ n → step s = .next (afterTake rest s)) ∧
      (n = 3 → step s = .next { afterTake rest s with ie := v.getLsbD 0 }) ∧
      (n = 4 → step s = .next { afterTake rest s with
        done := s.done && !v.getLsbD 1, err := s.err && !v.getLsbD 2,
        errCode := if s.err = true ∧ v.getLsbD 2 = true then 0 else s.errCode, proto := s.proto && !v.getLsbD 3 }) ∧
      (n = 5 → s.mode = .idle → step s = .next { afterTake rest s with width := v }) ∧
      (n = 6 → s.mode = .idle → step s = .next { afterTake rest s with height := v }) ∧
      (n = 7 → s.mode = .idle → step s = .next { afterTake rest s with len := v }) ∧
      (n = 8 → s.mode = .idle → ∀ i, v = encode i → step s = exec i (afterTake rest s)) ∧
      (n = 8 → s.mode = .idle → (∀ i, v ≠ encode i) → step s = .next (issueIllegal v (afterTake rest s))) ∧
      (5 ≤ n → n ≤ 8 → s.mode = .busy → step s = .next { afterTake rest s with proto := true })

/-- R62, R65: a performed `PixRead` returns the four bytes of the pixel, R in bits 7:0, and changes nothing; any other
returns zero and sets `PROTO`. -/
def Obligations.PixReadReturnsPixelWord : Prop :=
  ∀ (s : State) (p : Nat) (rest : List HostStmt), nextTurn s = .host → s.script = .pixRead p :: rest →
    (s.mode = .idle → p < s.params.pixmemBytes / 4 →
      ∃ v : Word, step s = .next { afterTake rest s with reads := s.reads ++ [v] } ∧
        v.extractLsb' 0 8 = s.pm.read (4 * p) ∧ v.extractLsb' 8 8 = s.pm.read (4 * p + 1) ∧
        v.extractLsb' 16 8 = s.pm.read (4 * p + 2) ∧ v.extractLsb' 24 8 = s.pm.read (4 * p + 3)) ∧
    (s.mode = .busy ∨ s.params.pixmemBytes / 4 ≤ p →
      step s = .next { afterTake rest s with reads := s.reads ++ [0], proto := true })

/-- R66: a performed `PixWrite` stores the four bytes of the word, and no other byte and no register changes; any other
is dropped and sets `PROTO`. -/
def Obligations.PixWriteStoresPixelWord : Prop :=
  ∀ (s : State) (p : Nat) (v : Word) (rest : List HostStmt), nextTurn s = .host → s.script = .pixWrite p v :: rest →
    (s.pm.wf → s.mode = .idle → p < s.params.pixmemBytes / 4 →
      ∃ t, step s = .next t ∧ t = setPm t.pm (afterTake rest s) ∧
        t.pm.read (4 * p) = v.extractLsb' 0 8 ∧ t.pm.read (4 * p + 1) = v.extractLsb' 8 8 ∧
        t.pm.read (4 * p + 2) = v.extractLsb' 16 8 ∧ t.pm.read (4 * p + 3) = v.extractLsb' 24 8 ∧
        ∀ a, (a < 4 * p ∨ 4 * p + 3 < a) → t.pm.read a = s.pm.read a) ∧
    (s.mode = .busy ∨ s.params.pixmemBytes / 4 ≤ p → step s = .next { afterTake rest s with proto := true })

/-- R97: the pseudo-instructions. `wait` reads `STATUS` and stays while bit 0 reads 1; the others expand to host steps.
That `wait` is one statement is the model's choice (log 4), and so is what `image` writes of a number of `2^32` or more
beside a zero (log 13). -/
def Obligations.PseudoInstructionsExpand : Prop :=
  (∀ i, stmtApply i = [.csrWrite 8 (encode i)]) ∧
  (∀ (s : State) (rest : List HostStmt), nextTurn s = .host → s.script = .wait :: rest →
    (s.mode = .busy → step s = .next { takeTurn s with reads := s.reads ++ [csrValue 4 s] }) ∧
    (s.mode = .idle → step s = .next { afterTake rest s with reads := s.reads ++ [csrValue 4 s] })) ∧
  (∀ m, stmtAck m = [.csrWrite 4 m]) ∧
  (∀ w h, 4 * w * h < 4294967296 → stmtImage w h = some [.csrWrite 5 (BitVec.ofNat 32 w), .csrWrite 6 (BitVec.ofNat 32 h),
    .csrWrite 7 (BitVec.ofNat 32 (4 * w * h))]) ∧
  (∀ p r g b a, ∃ v : Word, stmtPixel p r g b a = [.pixWrite p v] ∧
    v.toNat = r.toNat + 256 * g.toNat + 65536 * b.toNat + 16777216 * a.toNat) ∧
  stmtListFilters = [.csrRead 1]

/-- R120: `list_filters` is the codes `0 .. CAPS.NFILT - 1`, in every state the same eleven kinds in this order, named
as in R92; reading `CAPS` has no side effect on the engine. -/
def Obligations.ListFiltersEnumeratesEleven : Prop :=
  (∀ s : State, (csrValue 1 s).extractLsb' 0 8 = 11 ∧
    listFilters (csrValue 1 s) = [.invert, .blackAndWhite, .sepia, .brightness, .contrast, .threshold, .hueRotate,
      .saturate, .colorize, .sharpen, .blur] ∧
    (listFilters (csrValue 1 s)).map mnemonic = ["invert", "blackAndWhite", "sepia", "brightness", "contrast",
      "threshold", "hueRotate", "saturate", "colorize", "sharpen", "blur"]) ∧
  (∀ (s : State) (rest : List HostStmt), nextTurn s = .host → s.script = .csrRead 1 :: rest →
    step s = .next { afterTake rest s with reads := s.reads ++ [csrValue 1 s] })

/-! ### Flags, ownership, interrupt -/

/-- R40: the interrupt line over the registers as the host reads them. -/
def Obligations.InterruptLineFollowsFlags : Prop :=
  ∀ s : State, irq s = ((csrValue 3 s).getLsbD 0 && ((csrValue 4 s).getLsbD 1 || (csrValue 4 s).getLsbD 2))

/-- R180: "The engine's behaviour never depends on `irq` or `IE`": an engine turn, and an issue, do the same under
either value of `IE`. -/
def Obligations.EngineIgnoresInterruptEnable : Prop :=
  (∀ (s : State) (b : Bool), nextTurn s = .engine →
    step { s with ie := b } = mapNext (fun t => { t with ie := b }) (step s)) ∧
  (∀ (s : State) (b : Bool) (i : Instr), exec i { s with ie := b } = mapNext (fun t => { t with ie := b }) (exec i s))

/-- R181: `PROTO` never alters a command, never sets `ERR`, never drives `irq`, and stays set until the host clears it
or a reset. -/
def Obligations.ProtoIsStickyAndHarmless : Prop :=
  (∀ (s : State) (b : Bool) (i : Instr), exec i { s with proto := b } = mapNext (fun t => { t with proto := b }) (exec i s)) ∧
  (∀ s : State, irq (setProto s) = irq s ∧ (setProto s).err = s.err ∧ (setProto s).mode = s.mode) ∧
  (∀ s t : State, step s = .next t → s.proto = true → t.proto = true ∨
    (nextTurn s = .host ∧ ∃ v rest, s.script = .csrWrite 4 v :: rest ∧ v.getLsbD 3 = true) ∨
    (∃ pm snap, nextTurn s = .reset pm snap))

/-- R29, "set by" and "cleared by": the only steps that set or clear `BUSY`, `DONE` and `ERR`. An issue attempt is a
host write of `CMD` while IDLE. -/
def Obligations.FlagsChangeOnlyAsListed : Prop :=
  ∀ s t : State, step s = .next t →
    (s.mode = .idle → t.mode = .busy →
      nextTurn s = .host ∧ ∃ i rest, s.script = .csrWrite 8 (encode i) :: rest ∧ issueError i s = none) ∧
    (s.mode = .busy → t.mode = .idle →
      (nextTurn s = .engine ∧ s.cur = .fin ∧ t = complete (takeTurn s)) ∨ ∃ pm snap, nextTurn s = .reset pm snap) ∧
    (s.done = false → t.done = true → nextTurn s = .engine ∧ s.mode = .busy ∧ s.cur = .fin) ∧
    (s.done = true → t.done = false →
      (nextTurn s = .host ∧ ∃ v rest, s.script = .csrWrite 4 v :: rest ∧ v.getLsbD 1 = true) ∨
      (nextTurn s = .host ∧ s.mode = .idle ∧ ∃ v rest, s.script = .csrWrite 8 v :: rest) ∨
      ∃ pm snap, nextTurn s = .reset pm snap) ∧
    (s.err = false → t.err = true → nextTurn s = .host ∧ s.mode = .idle ∧ ∃ v rest, s.script = .csrWrite 8 v :: rest) ∧
    (s.err = true → t.err = false →
      (nextTurn s = .host ∧ ∃ v rest, s.script = .csrWrite 4 v :: rest ∧ v.getLsbD 2 = true) ∨
      (nextTurn s = .host ∧ s.mode = .idle ∧ ∃ v rest, s.script = .csrWrite 8 v :: rest) ∨
      ∃ pm snap, nextTurn s = .reset pm snap)

/-- R36, R70, R203: whatever statement the host takes while the engine is BUSY, the two memories, the geometry, the
command, the cursor and `STATE` stay as they are. -/
def Obligations.HostCannotDisturbRunningCommand : Prop :=
  ∀ s t : State, nextTurn s = .host → s.mode = .busy → step s = .next t →
    t.pm = s.pm ∧ t.snap = s.snap ∧ t.width = s.width ∧ t.height = s.height ∧ t.len = s.len ∧ t.cmd = s.cmd ∧
      t.mode = .busy ∧ t.cur = s.cur

/-- R22, R38, R39: the only steps that change PM (the engine's at a pixel while BUSY, a performed `PixWrite`, a reset)
and the only steps that change SNAP (the issue of sharpen, a reset). -/
def Obligations.MemoriesChangeOnlyByTheirOwner : Prop :=
  ∀ s t : State, step s = .next t →
    (t.pm ≠ s.pm →
      (nextTurn s = .engine ∧ s.mode = .busy ∧ s.cur ≠ .fin) ∨
      (nextTurn s = .host ∧ s.mode = .idle ∧ ∃ p v rest, s.script = .pixWrite p v :: rest ∧ p < pixcap s.params) ∨
      ∃ pm snap, nextTurn s = .reset pm snap) ∧
    (t.snap ≠ s.snap →
      (nextTurn s = .host ∧ s.mode = .idle ∧ ∃ rest, s.script = .csrWrite 8 (encode .sharpen) :: rest) ∨
      ∃ pm snap, nextTurn s = .reset pm snap)

/-- R184: an engine turn while IDLE does nothing. -/
def Obligations.IdleEngineIsInactive : Prop :=
  ∀ s : State, nextTurn s = .engine → s.mode = .idle → step s = .next (takeTurn s)

/-- R70, R203: a host that waits after every command before it touches PM or the four owned registers, and names only
pixel words that exist, never sets `PROTO`, under any schedule: the property is kept by every step. -/
def Obligations.DisciplinedHostNeverSetsProto : Prop :=
  ∀ s t : State, step s = .next t → s.proto = false → Disciplined s.params s.busy s.script →
    t.proto = false ∧ Disciplined t.params t.busy t.script

/-! ### Issue and errors -/

/-- R110: the issue of each of the eleven commands on an image that passes the checks. -/
def Obligations.AcceptedIssueStartsEngine : Prop :=
  ∀ (i : Instr) (s : State), s.mode = .idle → s.GeometryOk →
    ∃ t, exec i s = .next t ∧
      t = { s with cmd := encode i, done := false, err := false, errCode := 0, snap := t.snap, cur := t.cur, mode := .busy } ∧
      t.cur = (if i = .blur then (if 3 ≤ s.w ∧ 3 ≤ s.h then .pix 1 1 else .fin) else .pix 0 0) ∧
      (i ≠ .sharpen → t.snap = s.snap) ∧
      ∀ a, t.snap.read a = if i = .sharpen ∧ a < 4 * s.w * s.h then s.pm.read a else s.snap.read a

/-- R172, R174, R175, R177, R178: an issue of a legal command that fails a check reports the first failing check in the
order of R177, and does nothing else. What the entry of the record of R211 holds as its position is the model's choice
(log 4). -/
def Obligations.RejectedIssueReportsFirstError : Prop :=
  ∀ (i : Instr) (s : State), s.mode = .idle →
    let rejectedBy := fun (e : IssueError) (code : BitVec 4) =>
      exec i s = .next { s with
        cmd := encode i, done := false, err := true, errCode := code, rejected := s.rejected ++ [⟨e, s.position⟩] }
    (s.w = 0 ∨ s.h = 0 → rejectedBy .zeroDimension 4) ∧
    (s.w ≠ 0 → s.h ≠ 0 → 4 * s.w * s.h ≠ s.len.toNat → rejectedBy .dimensionMismatch 2) ∧
    (s.w ≠ 0 → s.h ≠ 0 → 4 * s.w * s.h = s.len.toNat → s.params.pixmemBytes < 4 * s.w * s.h → rejectedBy .capacity 5)

/-- R173: a word with `v[31:8] != 0` or `v[7:0] > 10`, written to `CMD` while IDLE, raises `IllegalFilter` whatever else
holds, and nothing is executed (R178). What the entry of the record of R211 holds as its position is the model's choice
(log 4). -/
def Obligations.IllegalWordRaisesIllegalFilter : Prop :=
  ∀ (s : State) (v : Word) (rest : List HostStmt),
    nextTurn s = .host → s.script = .csrWrite 8 v :: rest → s.mode = .idle → (v.toNat / 256 ≠ 0 ∨ 10 < v.toNat % 256) →
      step s = .next { afterTake rest s with
        cmd := v, done := false, err := true, errCode := 3,
        rejected := s.rejected ++ [⟨.illegalFilter, s.position + 1⟩] }

/-- R171, derived there from R150 and R41: no step raises `InvalidKernel`, and the model function `Convolve` reports an invalid kernel under that name
before it touches a pixel. -/
def Obligations.InvalidKernelOnlyFromConvolve : Prop :=
  (∀ s t : State, step s = .next t → t.errCode = 1 → s.errCode = 1) ∧
  (∀ (t : Tie) (w h : Nat) (src : Memory) (k : Kernel),
    ¬ (k.length % 2 = 1 ∧ ∀ row ∈ k, row.length = k.length) → convolve t w h src k = .error .invalidKernel)

/-- R211: the record of rejected issues is never cleared, and a step that adds to it is one that reports that error. How
positions are counted is the model's choice (log 4). -/
def Obligations.RejectionRecordOnlyGrows : Prop :=
  ∀ s t : State, step s = .next t →
    (t.rejected = s.rejected ∨ ∃ e, t.rejected = s.rejected ++ [⟨e, s.position + 1⟩] ∧ t.err = true ∧ t.errCode = e.code)

/-! ### The clamping arithmetic unit -/

/-- R116: `round_TIE` is a nearest integer and an exact half goes as `TIE` says. Derived there from R118: `up` and `away`
agree on a non-negative quotient and always store the same byte. Derived there from R131 to R139, R154 and R155: `TIE`
matters in sepia, hueRotate, colorize and blur only, and there only where R116 says a tie occurs. -/
def Obligations.RoundIsNearestWithTieRule : Prop :=
  (∀ (t : Tie) (n d : Int), 0 < d →
    2 * n - d ≤ 2 * (roundTie t n d * d) ∧ 2 * (roundTie t n d * d) ≤ 2 * n + d) ∧
  (∀ q d : Int, 0 < d → ∀ n : Int, 2 * n = (2 * q + 1) * d →
    (roundTie .even n d % 2 = 0 ∧ (roundTie .even n d = q ∨ roundTie .even n d = q + 1)) ∧
    roundTie .up n d = q + 1 ∧ roundTie .away n d = (if 0 ≤ n then q + 1 else q)) ∧
  (∀ n d : Int, 0 < d → (0 ≤ n → roundTie .up n d = roundTie .away n d) ∧ sat8 .up n d = sat8 .away n d) ∧
  (∀ (t u : Tie) (p : Rgb), filterInvert t p = filterInvert u p ∧ filterBlackAndWhite t p = filterBlackAndWhite u p ∧
    filterBrightness t p = filterBrightness u p ∧ filterContrast t p = filterContrast u p ∧
    filterSaturate t p = filterSaturate u p ∧
    (1 ≤ p.g.toNat ∨ p.r.toNat % 2 = 0 → filterHueRotate t p = filterHueRotate u p) ∧
    (p.r.toNat % 2 = 0 → p.g.toNat % 2 = 0 → p.b.toNat % 2 = 0 → filterColorize t p = filterColorize u p)) ∧
  (∀ (t u : Tie) (n : Int), n % 100 ≠ 50 → sat8 t n 100 = sat8 u n 100) ∧
  (∀ (t u : Tie) (m : Memory) (w x y ch : Nat), blurSum m w x y ch % 4 ≠ 2 → blurByte t m w x y ch = blurByte u m w x y ch) ∧
  (∀ (t u : Tie) (src : Memory) (w h x y ch : Nat), sharpenByte t src w h x y ch = sharpenByte u src w h x y ch)

/-- R117, R118: the byte stored is the rounded value constrained to 0..255, and the consequences R118 derives from R116
and R117. -/
def Obligations.StoredByteIsRoundedThenClamped : Prop :=
  ∀ (t : Tie) (n d : Int), 0 < d →
    ((sat8 t n d).toNat : Int) = max 0 (min 255 (roundTie t n d)) ∧
    (n ≤ 0 → sat8 t n d = 0) ∧ (509 * d < 2 * n → sat8 t n d = 255) ∧
    ((sat8 t n 1).toNat : Int) = max 0 (min 255 n)

/-! ### The nine point filters -/

/-- R131. -/
def Obligations.InvertFiltersPixel : Prop :=
  encode .invert = 0x00000000 ∧
  FilterAt .invert (fun _ p => ⟨255 - p.r, 255 - p.g, 255 - p.b⟩) ∧
  (∀ (t : Tie) (p : Rgb), filterInvert t (filterInvert t p) = p) ∧
  (∀ t : Tie, filterInvert t ⟨100, 150, 200⟩ = ⟨155, 105, 55⟩)

/-- R132. -/
def Obligations.BlackAndWhiteFiltersPixel : Prop :=
  encode .blackAndWhite = 0x00000001 ∧
  FilterAt .blackAndWhite (fun t p =>
    let v := sat8 t (p.r.toNat + p.g.toNat + p.b.toNat) 3
    ⟨v, v, v⟩) ∧
  (∀ (t : Tie) (p : Rgb), let s := p.r.toNat + p.g.toNat + p.b.toNat
    let v := (filterBlackAndWhite t p).r.toNat
    (s % 3 = 0 → 3 * v = s) ∧ (s % 3 = 1 → 3 * v + 1 = s) ∧ (s % 3 = 2 → 3 * v = s + 1)) ∧
  (∀ (t : Tie) (p : Rgb), filterBlackAndWhite t (filterBlackAndWhite t p) = filterBlackAndWhite t p)

/-- R133: all three outputs from the original lanes; red saturates above 25450, blue never exceeds 237. -/
def Obligations.SepiaFiltersPixel : Prop :=
  encode .sepia = 0x00000002 ∧
  FilterAt .sepia (fun t p =>
    ⟨sat8 t (35 * p.r.toNat + 68 * p.g.toNat + 17 * p.b.toNat) 100,
     sat8 t (34 * p.r.toNat + 65 * p.g.toNat + 15 * p.b.toNat) 100,
     sat8 t (27 * p.r.toNat + 53 * p.g.toNat + 13 * p.b.toNat) 100⟩) ∧
  (∀ (t : Tie) (p : Rgb), let n := 35 * p.r.toNat + 68 * p.g.toNat + 17 * p.b.toNat
    (25450 < n → (filterSepia t p).r = 255) ∧
    (n = 25450 → (filterSepia t p).r = (match t with | .even => 254 | .up => 255 | .away => 255)) ∧
    (filterSepia t p).b.toNat ≤ 237) ∧
  (∀ t : Tie, filterSepia t ⟨255, 255, 255⟩ = ⟨255, 255, 237⟩ ∧ filterSepia t ⟨255, 0, 0⟩ = ⟨89, 87, 69⟩ ∧
    filterSepia t ⟨0, 0, 50⟩ = (match t with | .even => ⟨8, 8, 6⟩ | .up => ⟨9, 8, 7⟩ | .away => ⟨9, 8, 7⟩)) ∧
  (∀ t : Tie, ∃ p : Rgb, filterSepia t (filterSepia t p) ≠ filterSepia t p)

/-- R134: `round(1.2 c)` up to 212, 255 from 213 on. -/
def Obligations.BrightnessFiltersPixel : Prop :=
  encode .brightness = 0x00000003 ∧
  FilterAt .brightness (fun t p => ⟨sat8 t (6 * p.r.toNat) 5, sat8 t (6 * p.g.toNat) 5, sat8 t (6 * p.b.toNat) 5⟩) ∧
  (∀ (t : Tie) (c : Byte),
    (c.toNat ≤ 212 → (sat8 t (6 * c.toNat) 5).toNat = (12 * c.toNat + 5) / 10) ∧
    (213 ≤ c.toNat → sat8 t (6 * c.toNat) 5 = 255)) ∧
  (∀ t : Tie, filterBrightness t ⟨100, 150, 200⟩ = ⟨120, 180, 240⟩ ∧ filterBrightness t ⟨212, 213, 127⟩ = ⟨254, 255, 152⟩) ∧
  (∀ t : Tie, ∃ p : Rgb, filterBrightness t (filterBrightness t p) ≠ filterBrightness t p)

/-- R135: `(6c - 128)/5`, 0 up to 21, 255 from 234 on, unchanged from 126 to 130. -/
def Obligations.ContrastFiltersPixel : Prop :=
  encode .contrast = 0x00000004 ∧
  FilterAt .contrast (fun t p =>
    ⟨sat8 t (6 * p.r.toNat - 128) 5, sat8 t (6 * p.g.toNat - 128) 5, sat8 t (6 * p.b.toNat - 128) 5⟩) ∧
  (∀ (t : Tie) (c : Byte),
    (c.toNat ≤ 21 → sat8 t (6 * c.toNat - 128) 5 = 0) ∧
    (22 ≤ c.toNat → c.toNat ≤ 233 → (sat8 t (6 * c.toNat - 128) 5).toNat = (12 * c.toNat - 251) / 10) ∧
    (234 ≤ c.toNat → sat8 t (6 * c.toNat - 128) 5 = 255) ∧
    (126 ≤ c.toNat → c.toNat ≤ 130 → sat8 t (6 * c.toNat - 128) 5 = c)) ∧
  (∀ t : Tie, filterContrast t ⟨100, 150, 200⟩ = ⟨94, 154, 214⟩ ∧ filterContrast t ⟨10, 200, 30⟩ = ⟨0, 214, 10⟩)

/-- R136: the exact average against 150; every output is 100 or 200; idempotent, which R136 derives from the formula. -/
def Obligations.ThresholdFiltersPixel : Prop :=
  encode .threshold = 0x00000005 ∧
  FilterAt .threshold (fun _ p =>
    if p.r.toNat + p.g.toNat + p.b.toNat < 450 then ⟨100, 100, 100⟩ else ⟨200, 200, 200⟩) ∧
  (∀ p : Rgb, filterThreshold p = ⟨100, 100, 100⟩ ∨ filterThreshold p = ⟨200, 200, 200⟩) ∧
  (∀ p : Rgb, filterThreshold (filterThreshold p) = filterThreshold p)

/-- R137, the formula: red and green from the original red and green by `isqrt`, blue copied. -/
def Obligations.HueRotateFiltersPixel : Prop :=
  encode .hueRotate = 0x00000006 ∧
  FilterAt .hueRotate (fun t p =>
    ⟨toByte (((isqrt (3 * p.r.toNat * p.r.toNat) : Int) - p.g.toNat + 1) / 2),
     if 1 ≤ p.g.toNat then toByte (((isqrt (3 * p.g.toNat * p.g.toNat) : Int) + p.r.toNat + 1) / 2)
     else sat8 t p.r.toNat 2,
     p.b⟩) ∧
  (∀ t : Tie, filterHueRotate t ⟨255, 0, 0⟩ = ⟨221, 128, 0⟩ ∧ filterHueRotate t ⟨0, 255, 0⟩ = ⟨0, 221, 0⟩ ∧
    filterHueRotate t ⟨255, 255, 255⟩ = ⟨93, 255, 255⟩ ∧ filterHueRotate t ⟨100, 150, 200⟩ = ⟨12, 180, 200⟩)

/-- R137, against the exact reals: the stored red and green are the clamped nearest integers of
`r*cos 30° - g*sin 30°` and `r*sin 30° + g*cos 30°`, with no tie in red for `r >= 1` and none in green for `g >= 1`, and
the tie rule of R116 in green for `g = 0`. -/
def Obligations.HueRotateIsExactRotation : Prop :=
  ∀ (t : Tie) (p : Rgb), let r : ℝ := p.r.toNat
    let g : ℝ := p.g.toNat
    (∃ v : ℤ, ((filterHueRotate t p).r.toNat : ℤ) = max 0 (min 255 v) ∧
      |(v : ℝ) - (r * (Real.sqrt 3 / 2) - g * (1 / 2))| ≤ 1 / 2 ∧
      (1 ≤ p.r.toNat → |(v : ℝ) - (r * (Real.sqrt 3 / 2) - g * (1 / 2))| < 1 / 2)) ∧
    (∃ v : ℤ, ((filterHueRotate t p).g.toNat : ℤ) = max 0 (min 255 v) ∧
      |(v : ℝ) - (r * (1 / 2) + g * (Real.sqrt 3 / 2))| ≤ 1 / 2 ∧
      (1 ≤ p.g.toNat → |(v : ℝ) - (r * (1 / 2) + g * (Real.sqrt 3 / 2))| < 1 / 2) ∧
      (p.g.toNat = 0 → v = roundTie t p.r.toNat 2)) ∧
    (filterHueRotate t p).b = p.b

/-- R138: a grey pixel is unchanged. -/
def Obligations.SaturateFiltersPixel : Prop :=
  encode .saturate = 0x00000007 ∧
  FilterAt .saturate (fun t p =>
    let s : Int := p.r.toNat + p.g.toNat + p.b.toNat
    ⟨sat8 t (18 * p.r.toNat - s) 15, sat8 t (18 * p.g.toNat - s) 15, sat8 t (18 * p.b.toNat - s) 15⟩) ∧
  (∀ (t : Tie) (c : Byte), filterSaturate t ⟨c, c, c⟩ = ⟨c, c, c⟩) ∧
  (∀ t : Tie, filterSaturate t ⟨255, 0, 0⟩ = ⟨255, 0, 0⟩ ∧ filterSaturate t ⟨100, 150, 200⟩ = ⟨90, 150, 210⟩ ∧
    filterSaturate t ⟨10, 200, 30⟩ = ⟨0, 224, 20⟩ ∧ filterSaturate t ⟨0, 0, 50⟩ = ⟨0, 0, 57⟩)

/-- R139: results lie in 40..168, 25..153, 60..188. -/
def Obligations.ColorizeFiltersPixel : Prop :=
  encode .colorize = 0x00000008 ∧
  FilterAt .colorize (fun t p => ⟨sat8 t (p.r.toNat + 80) 2, sat8 t (p.g.toNat + 50) 2, sat8 t (p.b.toNat + 120) 2⟩) ∧
  (∀ (t : Tie) (p : Rgb), let q := filterColorize t p
    40 ≤ q.r.toNat ∧ q.r.toNat ≤ 168 ∧ 25 ≤ q.g.toNat ∧ q.g.toNat ≤ 153 ∧ 60 ≤ q.b.toNat ∧ q.b.toNat ≤ 188) ∧
  (∀ t : Tie, filterColorize t ⟨0, 0, 0⟩ = ⟨40, 25, 60⟩ ∧ filterColorize t ⟨100, 150, 200⟩ = ⟨90, 100, 160⟩ ∧
    filterColorize t ⟨255, 255, 255⟩ = ⟨168, (match t with | .even => 152 | .up => 153 | .away => 153), 188⟩)

/-! ### The convolution engine, one step -/

/-- R154: the pixel step of sharpen, in the closed form R154 derives: four times the centre less the in-range
4-neighbours, all read from the snapshot. -/
def Obligations.SharpenFiltersPixel : Prop :=
  encode .sharpen = 0x00000009 ∧
  ∀ (s : State) (y x : Nat), s.AtPixel .sharpen y x →
    ∃ t, exec .sharpen s = .next t ∧ PixelFrame .sharpen s t y x ∧
      ∀ ch, ch < 3 →
        let c := fun (x' y' : Nat) => ((s.snap.read (4 * (y' * s.w + x') + ch)).toNat : Int)
        ((t.pm.read (pixelAddr s.w x y ch)).toNat : Int) =
          max 0 (min 255 (4 * c x y - (if 0 < y then c x (y - 1) else 0) - (if y + 1 < s.h then c x (y + 1) else 0)
            - (if 0 < x then c (x - 1) y else 0) - (if x + 1 < s.w then c (x + 1) y else 0)))

/-- R155: the pixel step of blur, all reads from PM as it stands. -/
def Obligations.BlurFiltersPixel : Prop :=
  encode .blur = 0x0000000A ∧
  ∀ (s : State) (y x : Nat), s.AtPixel .blur y x →
    ∃ t, exec .blur s = .next t ∧ PixelFrame .blur s t y x ∧
      ∀ ch, ch < 3 →
        let c := fun (x' y' : Nat) => ((s.pm.read (4 * (y' * s.w + x') + ch)).toNat : Int)
        t.pm.read (pixelAddr s.w x y ch) = sat8 s.params.tie (c (x - 1) y + c (x + 1) y + c x (y - 1) + c x (y + 1)) 4

/-- R113: the completion step, and that nothing but it and a reset ends a running command (R186). -/
def Obligations.CompletionEndsCommand : Prop :=
  (∀ (i : Instr) (s : State), s.mode = .busy → s.cur = .fin → exec i s = .next { s with mode := .idle, done := true }) ∧
  (∀ s t : State, step s = .next t → s.mode = .busy → t.mode = .idle →
    (nextTurn s = .engine ∧ s.cur = .fin ∧ t.done = true ∧ t.pm = s.pm) ∨ ∃ pm snap, nextTurn s = .reset pm snap)

/-! ### Frames and isolation over all commands -/

/-- R71, R114, R23: one step of any command writes no alpha byte, no byte at or above `4*W*H` and no byte of another
pixel, and never the geometry, `LEN`, `CTRL` or `PROTO`; a BUSY engine's step keeps `CMD`, SNAP and the error fields too. -/
def Obligations.CommandStepFrame : Prop :=
  ∀ (i : Instr) (s t : State), exec i s = .next t →
    (∀ x y, t.pm.read (pixelAddr s.w x y 3) = s.pm.read (pixelAddr s.w x y 3)) ∧
    (∀ a, imageBytes s.w s.h ≤ a → t.pm.read a = s.pm.read a) ∧
    (t.width = s.width ∧ t.height = s.height ∧ t.len = s.len ∧ t.ie = s.ie ∧ t.proto = s.proto ∧
      t.params = s.params ∧ t.script = s.script ∧ t.position = s.position ∧ t.reads = s.reads ∧ t.turns = s.turns) ∧
    (s.mode = .idle → t.pm = s.pm) ∧
    (s.mode = .busy → t.cmd = s.cmd ∧ t.snap = s.snap ∧ t.err = s.err ∧ t.errCode = s.errCode ∧ t.rejected = s.rejected ∧
      ∀ y x, s.cur = .pix y x → ∀ a, (a < pixelAddr s.w x y 0 ∨ pixelAddr s.w x y 2 < a) → t.pm.read a = s.pm.read a)

/-- R71, R114, R123: alpha is not read either. Two states that differ only in alpha bytes (and in bytes outside the
image) step alike: the colour bytes and every register agree afterwards. -/
def Obligations.AlphaNeverInfluencesColour : Prop :=
  ∀ (i : Instr) (s t : State) (pm snap : Memory), s.mode = .busy → exec i s = .next t → s.pm.wf → pm.wf →
    imageBytes s.w s.h ≤ s.params.pixmemBytes →
    (∀ x y ch, x < s.w → y < s.h → ch < 3 → pm.read (pixelAddr s.w x y ch) = s.pm.read (pixelAddr s.w x y ch) ∧
      snap.read (pixelAddr s.w x y ch) = s.snap.read (pixelAddr s.w x y ch)) →
    ∃ u, exec i { s with pm := pm, snap := snap } = .next u ∧ u = { t with pm := u.pm, snap := snap } ∧
      ∀ x y ch, x < s.w → y < s.h → ch < 3 → u.pm.read (pixelAddr s.w x y ch) = t.pm.read (pixelAddr s.w x y ch)

/-- R77, R185: a step of one engine leaves every other engine of the platform as it is and their number, and steps that
engine. -/
def Obligations.EnginesAreIndependent : Prop :=
  ∀ (e : Nat) (p q : Platform), platformStep e p = .next q →
    (∀ j, j ≠ e → q.engines[j]? = p.engines[j]?) ∧ q.nEngines = p.nEngines ∧
    ∀ s, p.engines[e]? = some s → ∃ t, step s = .next t ∧ q.engines[e]? = some t

/-! ### Whole commands -/

/-- R112, derived there from R110, R111, R113: a successful issue followed by the command's engine steps leaves `Apply(k, W, H, P)` in PM, `DONE` set
and everything else as R112 says; the command takes exactly `W*H + 1` engine steps, blur
`max(W-2,0)*max(H-2,0) + 1`. -/
def Obligations.WholeCommandAppliesFilter : Prop :=
  ∀ (i : Instr) (s : State), s.mode = .idle → s.GeometryOk →
    let n := if i = .blur then (s.w - 2) * (s.h - 2) + 1 else s.w * s.h + 1
    (∃ t, execTimes i (1 + n) s = .next t ∧
      t = { s with
        pm := applyCommand s.params.tie i s.w s.h s.pm, snap := t.snap, cmd := encode i,
        done := true, err := false, errCode := 0, mode := .idle, cur := .fin } ∧
      ∀ a, 4 * s.w * s.h ≤ a → t.pm.read a = s.pm.read a) ∧
    (∀ m, m < n → ∃ t, execTimes i (1 + m) s = .next t ∧ t.mode = .busy)

/-- R212, R112, R70: from the issue on, whatever the schedule and whatever the host does meanwhile, short of a reset, the
command completes within a bounded number of steps and leaves `Apply(k, W, H, P)`. Rests on log 5 for the steps after
the schedule's end. -/
def Obligations.EveryScheduleCompletesCommand : Prop :=
  ∀ (i : Instr) (s u : State), s.mode = .idle → s.GeometryOk → (∀ pm snap, Turn.reset pm snap ∉ s.turns) →
    exec i s = .next u →
    ∃ n t, n ≤ s.turns.length + stepCount i s.w s.h ∧ run n u = .next t ∧ t.mode = .idle ∧ t.done = true ∧ t.err = false ∧
      t.pm = applyCommand s.params.tie i s.w s.h s.pm ∧ t.width = s.width ∧ t.height = s.height ∧ t.len = s.len ∧
      t.cmd = encode i

/-- R121, R207: two commands one after the other, the host waiting after each: the second starts from the bytes the
first stored. Under every schedule without a reset; rests on log 5 for the steps after the schedule's end. -/
def Obligations.SequentialCommandsCompose : Prop :=
  ∀ (i j : Instr) (s : State), s.mode = .idle → s.GeometryOk → (∀ pm snap, Turn.reset pm snap ∉ s.turns) →
    s.script = stmtApply i ++ [.wait] ++ stmtApply j ++ [.wait] →
    ∃ n t, run n s = .next t ∧ t.Over ∧ t.proto = s.proto ∧ t.rejected = s.rejected ∧ t.done = true ∧
      t.pm = applyCommand s.params.tie j s.w s.h (applyCommand s.params.tie i s.w s.h s.pm)

/-- R131: "`invert(invert(image)) == image` for all valid images", as whole images. -/
def Obligations.InvertTwiceRestoresImage : Prop :=
  ∀ (t : Tie) (w h : Nat) (p : Memory), p.wf →
    applyCommand t .invert w h (applyCommand t .invert w h p) = p

/-- R130: a point command maps every pixel of the image by its function, whatever the order of visits, and changes no
other byte. -/
def Obligations.PointCommandMapsEveryPixel : Prop :=
  ∀ (t : Tie) (i : Instr) (f : Rgb → Rgb) (w h : Nat) (p : Memory), p.wf → pointFunction t i = some f →
    (∀ x y, x < w → y < h → rgbAt (applyCommand t i w h p) w x y = f (rgbAt p w x y)) ∧
    (∀ x y, (applyCommand t i w h p).read (pixelAddr w x y 3) = p.read (pixelAddr w x y 3)) ∧
    (∀ a, imageBytes w h ≤ a → (applyCommand t i w h p).read a = p.read a)

/-- R151: `Convolve` of a valid kernel, byte for byte: `SAT8` of the exact sum over the in-range terms, alpha copied. -/
def Obligations.ConvolveMeetsContract : Prop :=
  ∀ (t : Tie) (w h : Nat) (src : Memory) (k : Kernel), k.length % 2 = 1 → (∀ row ∈ k, row.length = k.length) →
    ∃ out, convolve t w h src k = .ok out ∧ out.length = 4 * w * h ∧
      ∀ x y, x < w → y < h →
        (∀ ch, ch < 3 → out.getD (4 * (y * w + x) + ch) 0 =
          sat8 t (kernelSum w h src k x y ch).num (kernelSum w h src k x y ch).den) ∧
        out.getD (4 * (y * w + x) + 3) 0 = src.read (4 * (y * w + x) + 3)

/-- R154: "The whole command computes `Convolve(W, H, P, SHARPEN_K)`." -/
def Obligations.SharpenIsConvolveWithItsKernel : Prop :=
  ∀ (t : Tie) (w h : Nat) (p : Memory), p.wf →
    ∃ out, convolve t w h p [[0, -1, 0], [-1, 4, -1], [0, -1, 0]] = .ok out ∧ out.length = 4 * w * h ∧
      ∀ a, a < 4 * w * h → (applyCommand t .sharpen w h p).read a = out.getD a 0

/-- R158: (a) sharpen on a flat image, derived there from R154 for any number of in-range neighbours, (b) a 1 by 1 image under any valid kernel, (c) `Convolve` reads no byte outside
the image. -/
def Obligations.FlatAndSinglePixelConvolutions : Prop :=
  (∀ (t : Tie) (w h : Nat) (p : Memory) (c : Byte) (ch : Nat), p.wf → ch < 3 →
    (∀ x y, x < w → y < h → p.read (pixelAddr w x y ch) = c) →
    ∀ x y, x < w → y < h →
      ((applyCommand t .sharpen w h p).read (pixelAddr w x y ch)).toNat = min 255 ((4 - neighbours4 w h x y) * c.toNat)) ∧
  (∀ (t : Tie) (src : Memory) (k : Kernel), k.length % 2 = 1 → (∀ row ∈ k, row.length = k.length) →
    ∃ out, convolve t 1 1 src k = .ok out ∧ out.length = 4 ∧
      ∀ ch, ch < 3 →
        let v : Rat := ((src.read ch).toNat : Rat) * (k.getD (k.length / 2) []).getD (k.length / 2) 0
        out.getD ch 0 = sat8 t v.num v.den) ∧
  (∀ (t : Tie) (w h : Nat) (src dst : Memory) (k : Kernel), (∀ a, a < 4 * w * h → dst.read a = src.read a) →
    convolve t w h dst k = convolve t w h src k)

/-- R156: blur's feedback, as a fixed point: with `O` the result and `P` the original, every interior byte of `O` is the
average of the NEW left and top bytes and the ORIGINAL right and bottom bytes; a border pixel's new byte is its
original. -/
def Obligations.BlurFeedsBackInScanOrder : Prop :=
  ∀ (t : Tie) (w h : Nat) (p : Memory), p.wf →
    (∀ x y ch, 1 ≤ x → x + 1 < w → 1 ≤ y → y + 1 < h → ch < 3 →
      (applyCommand t .blur w h p).read (pixelAddr w x y ch) =
        sat8 t (((applyCommand t .blur w h p).read (pixelAddr w (x - 1) y ch)).toNat +
          (p.read (pixelAddr w (x + 1) y ch)).toNat +
          ((applyCommand t .blur w h p).read (pixelAddr w x (y - 1) ch)).toNat +
          (p.read (pixelAddr w x (y + 1) ch)).toNat) 4) ∧
    (∀ x y ch, x < w → y < h → ch < 3 → (x = 0 ∨ x + 1 = w ∨ y = 0 ∨ y + 1 = h) →
      (applyCommand t .blur w h p).read (pixelAddr w x y ch) = p.read (pixelAddr w x y ch))

/-- R157: blur never writes the border, at a step and over the whole command; an image with no interior is left
unchanged in one engine step, which is success. -/
def Obligations.BlurNeverWritesBorder : Prop :=
  (∀ s t : State, exec .blur s = .next t → ∀ x y ch, x < s.w → y < s.h → ch < 4 →
    (x = 0 ∨ x + 1 = s.w ∨ y = 0 ∨ y + 1 = s.h) →
      t.pm.read (pixelAddr s.w x y ch) = s.pm.read (pixelAddr s.w x y ch)) ∧
  (∀ (t : Tie) (w h : Nat) (p : Memory) (x y ch : Nat), x < w → y < h → ch < 4 →
    (x = 0 ∨ x + 1 = w ∨ y = 0 ∨ y + 1 = h) →
      (applyCommand t .blur w h p).read (pixelAddr w x y ch) = p.read (pixelAddr w x y ch)) ∧
  (∀ s : State, s.mode = .idle → s.GeometryOk → (s.w < 3 ∨ s.h < 3) →
    ∃ t, execTimes .blur 2 s = .next t ∧ t.mode = .idle ∧ t.pm = s.pm ∧ t.done = true ∧ t.err = false)

/-- R160: blur is not `Convolve` with the four-neighbour kernel: on some image they differ at an interior pixel and at a
border pixel. -/
def Obligations.BlurIsNotConvolve : Prop :=
  ∃ (w h : Nat) (p : Memory) (out : List Byte) (a b : Nat), p.wf ∧
    convolve .even w h p [[0, 1 / 4, 0], [1 / 4, 0, 1 / 4], [0, 1 / 4, 0]] = .ok out ∧
    (∃ x y, 1 ≤ x ∧ x + 1 < w ∧ 1 ≤ y ∧ y + 1 < h ∧ a = pixelAddr w x y 0) ∧
    (∃ y, y < h ∧ b = pixelAddr w 0 y 0) ∧
    (applyCommand .even .blur w h p).read a ≠ out.getD a 0 ∧ (applyCommand .even .blur w h p).read b ≠ out.getD b 0

/-! ### The platform's address map, and what went wrong in a run -/

/-- R60, R7: where the platform maps the two host address spaces "has no effect on any rule": with other bases every
step does the same and leaves the bases. -/
def Obligations.AddressMapHasNoEffect : Prop :=
  ∀ (s : State) (c p : Nat), step (s.mappedAt c p) = mapNext (State.mappedAt c p) (step s)

/-- R211, R29, R178: a set `ERR` is that of the last rejected issue of the record, with its code: every step keeps
this. -/
def Obligations.ErrorFlagReportsLastRejection : Prop :=
  ∀ s t : State, s.ErrRecorded → step s = .next t → t.ErrRecorded

/-- R211: after reset a set `ERR` is that of the last rejected issue; a run that ends so, with `PROTO` clear and no
rejected issue but at the intended positions, has not gone wrong; with `PROTO` set, or with `ERR` set by an issue at
another position, it has. That the intention is a list of positions of the script is the model's choice (log 4 and 14). -/
def Obligations.GoneWrongUnlessIntended : Prop :=
  State.reset.ErrRecorded ∧
  (∀ (intended : List Nat) (s : State), s.ErrRecorded → s.proto = false →
    (∀ r ∈ s.rejected, r.position ∈ intended) → ¬ s.WentWrong intended) ∧
  (∀ (intended : List Nat) (s : State), s.proto = true → s.WentWrong intended) ∧
  (∀ (intended : List Nat) (s : State) (r : Rejection), s.err = true → s.rejected.getLast? = some r →
    r.position ∉ intended → s.WentWrong intended)
end

