-- ==== Sys2Proof/Laws/Arith.lean ====
section
/-! SUPPORT. The laws of the clamping arithmetic unit (spec/40_apply_and_clamp.md R116 to R118) and of isqrt. -/

namespace Sys2Proof.Machine

/-- `round_TIE` over the remainder: the form the proofs use. -/
theorem roundTie_eq_emod (t : Tie) (n d : Int) :
    roundTie t n d =
      if 2 * (n % d) < d then n / d
      else if d < 2 * (n % d) then n / d + 1
      else match t with
        | .even => if n / d % 2 = 0 then n / d else n / d + 1
        | .up => n / d + 1
        | .away => if 0 ≤ n then n / d + 1 else n / d := by
  have h : n - n / d * d = n % d := by have := Int.mul_ediv_add_emod n d; rw [Int.mul_comm]; omega
  simp only [roundTie, h] <;> rfl

/-- The rounded value is one of the two integers around the quotient. -/
theorem roundTie_floor_or_succ (t : Tie) (n d : Int) : roundTie t n d = n / d ∨ roundTie t n d = n / d + 1 := by
  rw [roundTie_eq_emod]
  cases t <;> simp only <;> split_ifs <;> simp

/-- No integer is nearer to the quotient than the rounded value. -/
theorem roundTie_near (t : Tie) (n : Int) {d : Int} (hd : 0 < d) :
    2 * n - d ≤ 2 * (roundTie t n d * d) ∧ 2 * (roundTie t n d * d) ≤ 2 * n + d := by
  have h1 := Int.emod_nonneg n hd.ne'
  have h2 := Int.emod_lt_of_pos n hd
  have h3 : n / d * d + n % d = n := Int.ediv_mul_add_emod n d
  rw [roundTie_eq_emod]
  cases t <;> simp only <;> split_ifs <;> (try rw [add_mul]) <;> constructor <;> omega

/-- Where there is no tie the tie rule does not matter. -/
theorem roundTie_no_tie (t u : Tie) (n d : Int) (h : 2 * (n % d) ≠ d) : roundTie t n d = roundTie u n d := by
  rw [roundTie_eq_emod, roundTie_eq_emod]
  rcases Int.lt_or_gt_of_ne h with h1 | h1
  · simp [h1]
  · have h2 : ¬ 2 * (n % d) < d := by omega
    simp [h1, h2]

theorem roundTie_one (t : Tie) (n : Int) : roundTie t n 1 = n := by
  rw [roundTie_eq_emod]; simp

theorem clamp255_range (v : Int) : 0 ≤ clamp255 v ∧ clamp255 v ≤ 255 := by
  unfold clamp255; omega

/-- The byte stored holds the clamped value. -/
@[simp] theorem toByte_toNat (v : Int) : ((toByte v).toNat : Int) = clamp255 v := by
  have h := clamp255_range v
  unfold toByte
  rw [BitVec.toNat_ofNat]
  omega

@[simp] theorem chan_toByte (v : Int) : chan (toByte v) = clamp255 v := toByte_toNat v

@[simp] theorem chan_sat8 (t : Tie) (n d : Int) : chan (sat8 t n d) = clamp255 (roundTie t n d) := toByte_toNat _

theorem chan_range (b : Byte) : 0 ≤ chan b ∧ chan b ≤ 255 := by
  have := b.isLt
  unfold chan
  omega

theorem chan_inj {a b : Byte} (h : chan a = chan b) : a = b := by
  unfold chan at h
  exact BitVec.eq_of_toNat_eq (by omega)

/-- The up and away rules store the same byte (R116). -/
theorem sat8_up_away (n : Int) {d : Int} (hd : 0 < d) : sat8 .up n d = sat8 .away n d := by
  by_cases hn : 0 ≤ n
  · unfold sat8; rw [roundTie_eq_emod, roundTie_eq_emod]; simp [hn]
  · apply chan_inj
    rw [chan_sat8, chan_sat8]
    have hq : n / d + 1 ≤ 0 := by
      have : n / d < 0 := Int.ediv_neg_of_neg_of_pos (by omega) hd
      omega
    have h1 := roundTie_floor_or_succ .up n d
    have h2 := roundTie_floor_or_succ .away n d
    unfold clamp255
    omega

theorem sat8_one (t : Tie) (n : Int) : sat8 t n 1 = toByte n := by
  unfold sat8; rw [roundTie_one]

theorem isqrtFuel_spec (fuel n : Nat) (h : n < 4 ^ fuel) :
    isqrtFuel fuel n * isqrtFuel fuel n ≤ n ∧ n < (isqrtFuel fuel n + 1) * (isqrtFuel fuel n + 1) := by
  induction fuel generalizing n with
  | zero => simp at h; subst h; simp [isqrtFuel]
  | succ fuel ih =>
    have h4 : n / 4 < 4 ^ fuel := by rw [pow_succ] at h; omega
    obtain ⟨hl, hu⟩ := ih (n / 4) h4
    simp only [isqrtFuel]
    generalize isqrtFuel fuel (n / 4) = r at *
    split
    · next hs =>
      refine ⟨hs, ?_⟩
      have : (2 * r + 1 + 1) * (2 * r + 1 + 1) = 4 * ((r + 1) * (r + 1)) := by ring
      omega
    · next hs =>
      refine ⟨?_, by omega⟩
      have : 2 * r * (2 * r) = 4 * (r * r) := by ring
      omega

/-- `isqrt(n)` is the largest `s` with `s*s <= n` (R9). -/
theorem isqrt_spec (n : Nat) : isqrt n * isqrt n ≤ n ∧ n < (isqrt n + 1) * (isqrt n + 1) := by
  refine isqrtFuel_spec _ n ?_
  have h1 : n < 2 ^ (n.log2 + 1) := Nat.lt_log2_self
  have h2 : 2 ^ (n.log2 + 1) ≤ 4 ^ (n.log2 + 1) := Nat.pow_le_pow_left (by omega) _
  omega

end Sys2Proof.Machine
end

