-- ==== Sys2Proof/Laws/Memory.lean ====
section
/-! SUPPORT. The laws of byte memory: a read after a write, the canonical form and the address bound of every memory
operation, and extensionality of canonical memories. -/

namespace Sys2Proof.Machine

@[simp] theorem Memory.read_nil (a : Nat) : Memory.read [] a = Memory.unlisted := rfl

@[simp] theorem Memory.read_head (c : Host.Cell) (m : Memory) (a : Nat) :
    Memory.read (c :: m) a = if c.1 = a then c.2 else Memory.read m a := rfl

/-- An address no cell lists reads as the unlisted value. -/
theorem Memory.read_unlisted {m : Memory} {a : Nat} (h : ∀ c ∈ m, c.1 ≠ a) : m.read a = Memory.unlisted := by
  induction m with
  | nil => rfl
  | cons c m ih =>
    have hc : c.1 ≠ a := h c (by simp)
    simp [hc, ih (fun d hd => h d (by simp [hd]))]

/-- A listed cell of a memory with rising addresses is what its address reads as. -/
theorem Memory.read_of_mem {m : Memory} (hm : m.Pairwise (fun c d => c.1 < d.1)) {c : Host.Cell} (hc : c ∈ m) :
    m.read c.1 = c.2 := by
  induction m with
  | nil => simp at hc
  | cons d m ih =>
    rw [List.pairwise_cons] at hm
    rcases List.mem_cons.1 hc with rfl | hc
    · simp
    · have : d.1 ≠ c.1 := Nat.ne_of_lt (hm.1 c hc)
      simp [this, ih hm.2 hc]

theorem Memory.wf_nil : Memory.wf [] := by simp [Memory.wf]

theorem Memory.wf_tail {c : Host.Cell} {m : Memory} (h : Memory.wf (c :: m)) : Memory.wf m :=
  ⟨(List.pairwise_cons.1 h.1).2, fun d hd => h.2 d (by simp [hd])⟩

theorem Memory.wf_head {c : Host.Cell} {m : Memory} (h : Memory.wf (c :: m)) : ∀ d ∈ m, c.1 < d.1 :=
  (List.pairwise_cons.1 h.1).1

theorem Memory.mem_cons {a : Nat} {v : Byte} {m : Memory} {c : Host.Cell} (h : c ∈ Memory.cons a v m) :
    c = (a, v) ∨ c ∈ m := by
  unfold Memory.cons at h; split at h
  · exact .inr h
  · simpa using h

/-- Putting a byte in front of higher addresses keeps the canonical form. -/
theorem Memory.cons_wf {a : Nat} {v : Byte} {m : Memory} (hm : m.wf) (ha : ∀ c ∈ m, a < c.1) : (Memory.cons a v m).wf := by
  unfold Memory.cons; split
  · exact hm
  · exact ⟨List.pairwise_cons.2 ⟨ha, hm.1⟩, by simpa using ⟨by assumption, fun b c => hm.2 (b, c)⟩⟩

theorem Memory.read_cons_same {a : Nat} {v : Byte} {m : Memory} (ha : ∀ c ∈ m, a < c.1) :
    (Memory.cons a v m).read a = v := by
  unfold Memory.cons; split
  · next h => rw [h]; exact Memory.read_unlisted (fun c hc => Nat.ne_of_gt (ha c hc))
  · simp

theorem Memory.read_cons_other {a b : Nat} {v : Byte} {m : Memory} (h : a ≠ b) : (Memory.cons a v m).read b = m.read b := by
  unfold Memory.cons; split
  · rfl
  · simp [h]

theorem Memory.mem_write {m : Memory} {a : Nat} {v : Byte} {c : Host.Cell} (h : c ∈ m.write a v) : c = (a, v) ∨ c ∈ m := by
  induction m with
  | nil => exact Memory.mem_cons h
  | cons d m ih =>
    unfold Memory.write at h; split at h
    · exact Memory.mem_cons h
    · split at h
      · exact (Memory.mem_cons h).imp_right (by simp +contextual)
      · rcases List.mem_cons.1 h with rfl | h
        · simp
        · exact (ih h).imp_right (by simp +contextual)

/-- A write keeps the canonical form. -/
theorem Memory.write_wf {m : Memory} (hm : m.wf) (a : Nat) (v : Byte) : (m.write a v).wf := by
  induction m with
  | nil => exact Memory.cons_wf Memory.wf_nil (by simp)
  | cons d m ih =>
    have hd := Memory.wf_head hm
    unfold Memory.write; split
    · next h => exact Memory.cons_wf hm (by simpa using ⟨h, fun b c hc => Nat.lt_trans h (hd (b, c) hc)⟩)
    · split
      · next h => exact Memory.cons_wf (Memory.wf_tail hm) (by rw [h]; exact hd)
      · have hw := ih (Memory.wf_tail hm)
        refine ⟨List.pairwise_cons.2 ⟨fun c hc => ?_, hw.1⟩, fun c hc => ?_⟩
        · rcases Memory.mem_write hc with rfl | hc
          · simp only; omega
          · exact hd c hc
        · rcases List.mem_cons.1 hc with rfl | hc
          · exact hm.2 _ (by simp)
          · exact hw.2 c hc

theorem Memory.write_below {m : Memory} {n a : Nat} (hm : m.below n) (ha : a < n) (v : Byte) : (m.write a v).below n := by
  intro c hc
  rcases Memory.mem_write hc with rfl | hc
  · exact ha
  · exact hm c hc

/-- A read after a write to the same address gives the byte written. -/
theorem Memory.read_write_same {m : Memory} (hm : m.wf) (a : Nat) (v : Byte) : (m.write a v).read a = v := by
  induction m with
  | nil => exact Memory.read_cons_same (by simp)
  | cons d m ih =>
    have hd := Memory.wf_head hm
    unfold Memory.write; split
    · next h => exact Memory.read_cons_same (by simpa using ⟨h, fun b c hc => Nat.lt_trans h (hd (b, c) hc)⟩)
    · split
      · next h => exact Memory.read_cons_same (by rw [h]; exact hd)
      · next h => simp [Ne.symm h, ih (Memory.wf_tail hm)]

/-- A write leaves every other address alone. -/
theorem Memory.read_write_other {a b : Nat} (h : a ≠ b) (m : Memory) (v : Byte) : (m.write a v).read b = m.read b := by
  induction m with
  | nil => exact Memory.read_cons_other h
  | cons d m ih =>
    unfold Memory.write; split
    · exact Memory.read_cons_other h
    · split
      · next hd => rw [Memory.read_cons_other h]; simp [← hd, h]
      · simp [ih]

/-- The two read laws in one. -/
theorem Memory.read_write {m : Memory} (hm : m.wf) (a b : Nat) (v : Byte) :
    (m.write a v).read b = if a = b then v else m.read b := by
  split
  · next h => rw [← h, Memory.read_write_same hm]
  · next h => exact Memory.read_write_other h m v

/-- Two canonical memories that read alike are the same list. -/
theorem Memory.ext_of_read {m n : Memory} (hm : m.wf) (hn : n.wf) (h : ∀ a, m.read a = n.read a) : m = n := by
  induction m generalizing n with
  | nil =>
    cases n with
    | nil => rfl
    | cons d n => exact absurd (by simpa using (h d.1).symm) (hn.2 d (by simp))
  | cons c m ih =>
    cases n with
    | nil => exact absurd (by simpa using h c.1) (hm.2 c (by simp))
    | cons d n =>
      have hc := Memory.wf_head hm
      have hd := Memory.wf_head hn
      have hcu := hm.2 c (by simp)
      have hdu := hn.2 d (by simp)
      have hcd : c.1 = d.1 := by
        rcases Nat.lt_trichotomy c.1 d.1 with hlt | heq | hlt
        · have := h c.1
          rw [Memory.read_head, if_pos rfl, Memory.read_unlisted] at this
          · exact absurd this hcu
          · intro e he
            rcases List.mem_cons.1 he with rfl | he
            · omega
            · have := hd e he; omega
        · exact heq
        · have := h d.1
          rw [Memory.read_head d, if_pos rfl, Memory.read_unlisted] at this
          · exact absurd this.symm hdu
          · intro e he
            rcases List.mem_cons.1 he with rfl | he
            · omega
            · have := hc e he; omega
      have hv : c.2 = d.2 := by simpa [hcd] using h c.1
      have htail : m = n := ih (Memory.wf_tail hm) (Memory.wf_tail hn) (fun a => by
        by_cases ha : c.1 = a
        · rw [Memory.read_unlisted, Memory.read_unlisted]
          · intro e he; have := hd e he; omega
          · intro e he; have := hc e he; omega
        · simpa [ha, ← hcd] using h a)
      rw [htail, Prod.ext hcd hv]

theorem Memory.read_filter (p : Nat → Bool) (m : Memory) (a : Nat) :
    Memory.read (m.filter (fun c => p c.1)) a = if p a then m.read a else Memory.unlisted := by
  induction m with
  | nil => simp
  | cons c m ih =>
    rw [List.filter_cons]
    by_cases ha : c.1 = a
    · subst ha
      by_cases hc : p c.1 <;> simp [hc, ih]
    · by_cases hc : p c.1 <;> simp [hc, ih, ha]

theorem Memory.read_append_left {m n : Memory} {a : Nat} (h : ∀ c ∈ n, c.1 ≠ a) : Memory.read (m ++ n) a = m.read a := by
  induction m with
  | nil => simpa using Memory.read_unlisted h
  | cons c m ih => simp [ih]

theorem Memory.read_append_right {m n : Memory} {a : Nat} (h : ∀ c ∈ m, c.1 ≠ a) : Memory.read (m ++ n) a = n.read a := by
  induction m with
  | nil => rfl
  | cons c m ih =>
    have hc := h c (by simp)
    simp [hc, ih (fun d hd => h d (by simp [hd]))]

/-- What the snapshot capture leaves at each address. -/
theorem Memory.read_copyBelow (n : Nat) (src dst : Memory) (a : Nat) :
    (Memory.copyBelow n src dst).read a = if a < n then src.read a else dst.read a := by
  unfold Memory.copyBelow
  split
  · next h =>
    rw [Memory.read_append_left, Memory.read_filter (fun b => decide (b < n))]
    · simp [h]
    · intro c hc; have := (List.mem_filter.1 hc).2; simp at this; omega
  · next h =>
    rw [Memory.read_append_right, Memory.read_filter (fun b => decide (n ≤ b))]
    · simp [Nat.le_of_not_lt h]
    · intro c hc; have := (List.mem_filter.1 hc).2; simp at this; omega

theorem Memory.copyBelow_wf {src dst : Memory} (hs : src.wf) (hd : dst.wf) (n : Nat) : (Memory.copyBelow n src dst).wf := by
  refine ⟨List.pairwise_append.2 ⟨hs.1.filter _, hd.1.filter _, fun c hc d hd => ?_⟩, fun c hc => ?_⟩
  · have h1 := (List.mem_filter.1 hc).2
    have h2 := (List.mem_filter.1 hd).2
    simp at h1 h2; omega
  · rcases List.mem_append.1 hc with h | h
    · exact hs.2 c (List.mem_filter.1 h).1
    · exact hd.2 c (List.mem_filter.1 h).1

theorem Memory.copyBelow_below {src dst : Memory} {k : Nat} (hs : src.below k) (hd : dst.below k) (n : Nat) :
    (Memory.copyBelow n src dst).below k := by
  intro c hc
  rcases List.mem_append.1 hc with h | h
  · exact hs c (List.mem_filter.1 h).1
  · exact hd c (List.mem_filter.1 h).1

theorem Memory.draw_wf {n : Nat} {acc : Memory} (hacc : acc.wf) (cells : Memory) : (Memory.draw n acc cells).wf := by
  induction cells generalizing acc with
  | nil => exact hacc
  | cons c cells ih =>
    unfold Memory.draw
    split
    · exact ih (Memory.write_wf hacc _ _)
    · exact ih hacc

theorem Memory.draw_below {n : Nat} {acc : Memory} (hacc : acc.below n) (cells : Memory) : (Memory.draw n acc cells).below n := by
  induction cells generalizing acc with
  | nil => exact hacc
  | cons c cells ih =>
    unfold Memory.draw
    split
    · next h => exact ih (Memory.write_below hacc h _)
    · exact ih hacc

/-- An address no drawn cell lists keeps what it was. -/
theorem Memory.read_draw_other {n a : Nat} (acc : Memory) {cells : Memory} (h : ∀ c ∈ cells, c.1 ≠ a) :
    (Memory.draw n acc cells).read a = acc.read a := by
  induction cells generalizing acc with
  | nil => rfl
  | cons c cells ih =>
    have hc : c.1 ≠ a := h c (by simp)
    unfold Memory.draw
    rw [ih _ (fun d hd => h d (by simp [hd]))]
    split
    · exact Memory.read_write_other hc acc _
    · rfl

/-- A drawn canonical memory reads as it was drawn, at every address that exists. -/
theorem Memory.read_draw {n a : Nat} {acc cells : Memory} (hacc : acc.wf) (hc : cells.wf) (ha : a < n) :
    (Memory.draw n acc cells).read a = if (∃ c ∈ cells, c.1 = a) then cells.read a else acc.read a := by
  induction cells generalizing acc with
  | nil => simp [Memory.draw]
  | cons c cells ih =>
    by_cases h : c.1 = a
    · have hlt : c.1 < n := by omega
      have htail : ∀ d ∈ cells, d.1 ≠ a := fun d hd => by have := Memory.wf_head hc d hd; omega
      unfold Memory.draw
      rw [if_pos hlt, Memory.read_draw_other _ htail, if_pos ⟨c, by simp, h⟩, ← h, Memory.read_write_same hacc]
      simp
    · unfold Memory.draw
      have hw : (if c.1 < n then acc.write c.1 c.2 else acc).wf := by
        split
        · exact Memory.write_wf hacc _ _
        · exact hacc
      have hr : (if c.1 < n then acc.write c.1 c.2 else acc).read a = acc.read a := by
        split
        · exact Memory.read_write_other h acc _
        · rfl
      rw [ih hw (Memory.wf_tail hc), hr]
      simp [h]

/-- Drawing a canonical memory into an empty one gives what was drawn. -/
theorem Memory.read_draw_empty {n a : Nat} {cells : Memory} (hc : cells.wf) (ha : a < n) :
    (Memory.draw n [] cells).read a = cells.read a := by
  rw [Memory.read_draw Memory.wf_nil hc ha]
  split
  · rfl
  · next h =>
    rw [Memory.read_nil, Memory.read_unlisted]
    intro c hc hca
    exact h ⟨c, hc, hca⟩

theorem Memory.writeWord_wf {m : Memory} (hm : m.wf) (a : Nat) (v : Word) : (m.writeWord a v).wf :=
  Memory.write_wf (Memory.write_wf (Memory.write_wf (Memory.write_wf hm _ _) _ _) _ _) _ _

theorem Memory.writeWord_below {m : Memory} {n a : Nat} (hm : m.below n) (ha : a + 3 < n) (v : Word) :
    (m.writeWord a v).below n :=
  Memory.write_below (Memory.write_below (Memory.write_below (Memory.write_below hm (by omega) _) (by omega) _) (by omega) _)
    (by omega) _

/-- The four bytes a word write stores. -/
theorem Memory.read_writeWord_same {m : Memory} (hm : m.wf) (a : Nat) (v : Word) {k : Nat} (hk : k < 4) :
    (m.writeWord a v).read (a + k) = v.extractLsb' (8 * k) 8 := by
  have h1 := Memory.write_wf hm a (v.extractLsb' 0 8)
  have h2 := Memory.write_wf h1 (a + 1) (v.extractLsb' 8 8)
  have h3 := Memory.write_wf h2 (a + 2) (v.extractLsb' 16 8)
  unfold Memory.writeWord
  rw [Memory.read_write h3, Memory.read_write h2, Memory.read_write h1, Memory.read_write hm]
  have : k = 0 ∨ k = 1 ∨ k = 2 ∨ k = 3 := by omega
  rcases this with rfl | rfl | rfl | rfl <;> simp

/-- A word write leaves every byte outside its four alone. -/
theorem Memory.read_writeWord_other {a b : Nat} (h : b < a ∨ a + 3 < b) (m : Memory) (v : Word) :
    (m.writeWord a v).read b = m.read b := by
  unfold Memory.writeWord
  rw [Memory.read_write_other (by omega), Memory.read_write_other (by omega), Memory.read_write_other (by omega),
    Memory.read_write_other (by omega)]

theorem Memory.mem_ofBytesAt {a : Nat} {vs : List Byte} {c : Host.Cell} (h : c ∈ Memory.ofBytesAt a vs) : a ≤ c.1 := by
  induction vs generalizing a with
  | nil => simp [Memory.ofBytesAt] at h
  | cons v vs ih =>
    rcases Memory.mem_cons h with rfl | h
    · exact Nat.le_refl _
    · exact Nat.le_of_succ_le (ih h)

theorem Memory.ofBytesAt_wf (a : Nat) (vs : List Byte) : (Memory.ofBytesAt a vs).wf := by
  induction vs generalizing a with
  | nil => exact Memory.wf_nil
  | cons v vs ih => exact Memory.cons_wf (ih (a + 1)) (fun c hc => Memory.mem_ofBytesAt hc)

end Sys2Proof.Machine
end

