-- ==== Sys2Proof/Laws/State.lean ====
section
/-! SUPPORT. For each named update of State, what it leaves in each field: true by unfolding, and used by simp, so that
no proof about a step unfolds a record update. -/

namespace Sys2Proof.Machine

variable (s : State)

@[simp] theorem setPm_params (m : Memory) : (setPm m s).params = s.params := rfl
@[simp] theorem setPm_pm (m : Memory) : (setPm m s).pm = m := rfl
@[simp] theorem setPm_snap (m : Memory) : (setPm m s).snap = s.snap := rfl
@[simp] theorem setPm_ie (m : Memory) : (setPm m s).ie = s.ie := rfl
@[simp] theorem setPm_done (m : Memory) : (setPm m s).done = s.done := rfl
@[simp] theorem setPm_err (m : Memory) : (setPm m s).err = s.err := rfl
@[simp] theorem setPm_proto (m : Memory) : (setPm m s).proto = s.proto := rfl
@[simp] theorem setPm_errCode (m : Memory) : (setPm m s).errCode = s.errCode := rfl
@[simp] theorem setPm_width (m : Memory) : (setPm m s).width = s.width := rfl
@[simp] theorem setPm_height (m : Memory) : (setPm m s).height = s.height := rfl
@[simp] theorem setPm_len (m : Memory) : (setPm m s).len = s.len := rfl
@[simp] theorem setPm_cmd (m : Memory) : (setPm m s).cmd = s.cmd := rfl
@[simp] theorem setPm_mode (m : Memory) : (setPm m s).mode = s.mode := rfl
@[simp] theorem setPm_cur (m : Memory) : (setPm m s).cur = s.cur := rfl
@[simp] theorem setPm_script (m : Memory) : (setPm m s).script = s.script := rfl
@[simp] theorem setPm_position (m : Memory) : (setPm m s).position = s.position := rfl
@[simp] theorem setPm_reads (m : Memory) : (setPm m s).reads = s.reads := rfl
@[simp] theorem setPm_rejected (m : Memory) : (setPm m s).rejected = s.rejected := rfl
@[simp] theorem setPm_turns (m : Memory) : (setPm m s).turns = s.turns := rfl
@[simp] theorem setPm_w (m : Memory) : (setPm m s).w = s.w := rfl
@[simp] theorem setPm_h (m : Memory) : (setPm m s).h = s.h := rfl

@[simp] theorem setCur_params (c : Cursor) : (setCur c s).params = s.params := rfl
@[simp] theorem setCur_pm (c : Cursor) : (setCur c s).pm = s.pm := rfl
@[simp] theorem setCur_snap (c : Cursor) : (setCur c s).snap = s.snap := rfl
@[simp] theorem setCur_ie (c : Cursor) : (setCur c s).ie = s.ie := rfl
@[simp] theorem setCur_done (c : Cursor) : (setCur c s).done = s.done := rfl
@[simp] theorem setCur_err (c : Cursor) : (setCur c s).err = s.err := rfl
@[simp] theorem setCur_proto (c : Cursor) : (setCur c s).proto = s.proto := rfl
@[simp] theorem setCur_errCode (c : Cursor) : (setCur c s).errCode = s.errCode := rfl
@[simp] theorem setCur_width (c : Cursor) : (setCur c s).width = s.width := rfl
@[simp] theorem setCur_height (c : Cursor) : (setCur c s).height = s.height := rfl
@[simp] theorem setCur_len (c : Cursor) : (setCur c s).len = s.len := rfl
@[simp] theorem setCur_cmd (c : Cursor) : (setCur c s).cmd = s.cmd := rfl
@[simp] theorem setCur_mode (c : Cursor) : (setCur c s).mode = s.mode := rfl
@[simp] theorem setCur_cur (c : Cursor) : (setCur c s).cur = c := rfl
@[simp] theorem setCur_script (c : Cursor) : (setCur c s).script = s.script := rfl
@[simp] theorem setCur_position (c : Cursor) : (setCur c s).position = s.position := rfl
@[simp] theorem setCur_reads (c : Cursor) : (setCur c s).reads = s.reads := rfl
@[simp] theorem setCur_rejected (c : Cursor) : (setCur c s).rejected = s.rejected := rfl
@[simp] theorem setCur_turns (c : Cursor) : (setCur c s).turns = s.turns := rfl
@[simp] theorem setCur_w (c : Cursor) : (setCur c s).w = s.w := rfl
@[simp] theorem setCur_h (c : Cursor) : (setCur c s).h = s.h := rfl

@[simp] theorem beginIssue_params (v : Word) : (beginIssue v s).params = s.params := rfl
@[simp] theorem beginIssue_pm (v : Word) : (beginIssue v s).pm = s.pm := rfl
@[simp] theorem beginIssue_snap (v : Word) : (beginIssue v s).snap = s.snap := rfl
@[simp] theorem beginIssue_ie (v : Word) : (beginIssue v s).ie = s.ie := rfl
@[simp] theorem beginIssue_done (v : Word) : (beginIssue v s).done = false := rfl
@[simp] theorem beginIssue_err (v : Word) : (beginIssue v s).err = false := rfl
@[simp] theorem beginIssue_proto (v : Word) : (beginIssue v s).proto = s.proto := rfl
@[simp] theorem beginIssue_errCode (v : Word) : (beginIssue v s).errCode = 0 := rfl
@[simp] theorem beginIssue_width (v : Word) : (beginIssue v s).width = s.width := rfl
@[simp] theorem beginIssue_height (v : Word) : (beginIssue v s).height = s.height := rfl
@[simp] theorem beginIssue_len (v : Word) : (beginIssue v s).len = s.len := rfl
@[simp] theorem beginIssue_cmd (v : Word) : (beginIssue v s).cmd = v := rfl
@[simp] theorem beginIssue_mode (v : Word) : (beginIssue v s).mode = s.mode := rfl
@[simp] theorem beginIssue_cur (v : Word) : (beginIssue v s).cur = s.cur := rfl
@[simp] theorem beginIssue_script (v : Word) : (beginIssue v s).script = s.script := rfl
@[simp] theorem beginIssue_position (v : Word) : (beginIssue v s).position = s.position := rfl
@[simp] theorem beginIssue_reads (v : Word) : (beginIssue v s).reads = s.reads := rfl
@[simp] theorem beginIssue_rejected (v : Word) : (beginIssue v s).rejected = s.rejected := rfl
@[simp] theorem beginIssue_turns (v : Word) : (beginIssue v s).turns = s.turns := rfl
@[simp] theorem beginIssue_w (v : Word) : (beginIssue v s).w = s.w := rfl
@[simp] theorem beginIssue_h (v : Word) : (beginIssue v s).h = s.h := rfl

@[simp] theorem raiseError_params (e : IssueError) : (raiseError e s).params = s.params := rfl
@[simp] theorem raiseError_pm (e : IssueError) : (raiseError e s).pm = s.pm := rfl
@[simp] theorem raiseError_snap (e : IssueError) : (raiseError e s).snap = s.snap := rfl
@[simp] theorem raiseError_ie (e : IssueError) : (raiseError e s).ie = s.ie := rfl
@[simp] theorem raiseError_done (e : IssueError) : (raiseError e s).done = s.done := rfl
@[simp] theorem raiseError_err (e : IssueError) : (raiseError e s).err = true := rfl
@[simp] theorem raiseError_proto (e : IssueError) : (raiseError e s).proto = s.proto := rfl
@[simp] theorem raiseError_errCode (e : IssueError) : (raiseError e s).errCode = e.code := rfl
@[simp] theorem raiseError_width (e : IssueError) : (raiseError e s).width = s.width := rfl
@[simp] theorem raiseError_height (e : IssueError) : (raiseError e s).height = s.height := rfl
@[simp] theorem raiseError_len (e : IssueError) : (raiseError e s).len = s.len := rfl
@[simp] theorem raiseError_cmd (e : IssueError) : (raiseError e s).cmd = s.cmd := rfl
@[simp] theorem raiseError_mode (e : IssueError) : (raiseError e s).mode = s.mode := rfl
@[simp] theorem raiseError_cur (e : IssueError) : (raiseError e s).cur = s.cur := rfl
@[simp] theorem raiseError_script (e : IssueError) : (raiseError e s).script = s.script := rfl
@[simp] theorem raiseError_position (e : IssueError) : (raiseError e s).position = s.position := rfl
@[simp] theorem raiseError_reads (e : IssueError) : (raiseError e s).reads = s.reads := rfl
@[simp] theorem raiseError_rejected (e : IssueError) : (raiseError e s).rejected = s.rejected ++ [⟨e, s.position⟩] := rfl
@[simp] theorem raiseError_turns (e : IssueError) : (raiseError e s).turns = s.turns := rfl
@[simp] theorem raiseError_w (e : IssueError) : (raiseError e s).w = s.w := rfl
@[simp] theorem raiseError_h (e : IssueError) : (raiseError e s).h = s.h := rfl

@[simp] theorem ackStatus_params (v : Word) : (ackStatus v s).params = s.params := rfl
@[simp] theorem ackStatus_pm (v : Word) : (ackStatus v s).pm = s.pm := rfl
@[simp] theorem ackStatus_snap (v : Word) : (ackStatus v s).snap = s.snap := rfl
@[simp] theorem ackStatus_ie (v : Word) : (ackStatus v s).ie = s.ie := rfl
@[simp] theorem ackStatus_done (v : Word) : (ackStatus v s).done = (s.done && !v.getLsbD 1) := rfl
@[simp] theorem ackStatus_err (v : Word) : (ackStatus v s).err = (s.err && !v.getLsbD 2) := rfl
@[simp] theorem ackStatus_proto (v : Word) : (ackStatus v s).proto = (s.proto && !v.getLsbD 3) := rfl
@[simp] theorem ackStatus_errCode (v : Word) : (ackStatus v s).errCode = if s.err && v.getLsbD 2 then 0 else s.errCode := rfl
@[simp] theorem ackStatus_width (v : Word) : (ackStatus v s).width = s.width := rfl
@[simp] theorem ackStatus_height (v : Word) : (ackStatus v s).height = s.height := rfl
@[simp] theorem ackStatus_len (v : Word) : (ackStatus v s).len = s.len := rfl
@[simp] theorem ackStatus_cmd (v : Word) : (ackStatus v s).cmd = s.cmd := rfl
@[simp] theorem ackStatus_mode (v : Word) : (ackStatus v s).mode = s.mode := rfl
@[simp] theorem ackStatus_cur (v : Word) : (ackStatus v s).cur = s.cur := rfl
@[simp] theorem ackStatus_script (v : Word) : (ackStatus v s).script = s.script := rfl
@[simp] theorem ackStatus_position (v : Word) : (ackStatus v s).position = s.position := rfl
@[simp] theorem ackStatus_reads (v : Word) : (ackStatus v s).reads = s.reads := rfl
@[simp] theorem ackStatus_rejected (v : Word) : (ackStatus v s).rejected = s.rejected := rfl
@[simp] theorem ackStatus_turns (v : Word) : (ackStatus v s).turns = s.turns := rfl
@[simp] theorem ackStatus_w (v : Word) : (ackStatus v s).w = s.w := rfl
@[simp] theorem ackStatus_h (v : Word) : (ackStatus v s).h = s.h := rfl

@[simp] theorem setProto_params : (setProto s).params = s.params := rfl
@[simp] theorem setProto_pm : (setProto s).pm = s.pm := rfl
@[simp] theorem setProto_snap : (setProto s).snap = s.snap := rfl
@[simp] theorem setProto_ie : (setProto s).ie = s.ie := rfl
@[simp] theorem setProto_done : (setProto s).done = s.done := rfl
@[simp] theorem setProto_err : (setProto s).err = s.err := rfl
@[simp] theorem setProto_proto : (setProto s).proto = true := rfl
@[simp] theorem setProto_errCode : (setProto s).errCode = s.errCode := rfl
@[simp] theorem setProto_width : (setProto s).width = s.width := rfl
@[simp] theorem setProto_height : (setProto s).height = s.height := rfl
@[simp] theorem setProto_len : (setProto s).len = s.len := rfl
@[simp] theorem setProto_cmd : (setProto s).cmd = s.cmd := rfl
@[simp] theorem setProto_mode : (setProto s).mode = s.mode := rfl
@[simp] theorem setProto_cur : (setProto s).cur = s.cur := rfl
@[simp] theorem setProto_script : (setProto s).script = s.script := rfl
@[simp] theorem setProto_position : (setProto s).position = s.position := rfl
@[simp] theorem setProto_reads : (setProto s).reads = s.reads := rfl
@[simp] theorem setProto_rejected : (setProto s).rejected = s.rejected := rfl
@[simp] theorem setProto_turns : (setProto s).turns = s.turns := rfl
@[simp] theorem setProto_w : (setProto s).w = s.w := rfl
@[simp] theorem setProto_h : (setProto s).h = s.h := rfl

@[simp] theorem startEngine_params (i : Instr) : (startEngine i s).params = s.params := rfl
@[simp] theorem startEngine_pm (i : Instr) : (startEngine i s).pm = s.pm := rfl
@[simp] theorem startEngine_snap (i : Instr) : (startEngine i s).snap = s.snap := rfl
@[simp] theorem startEngine_ie (i : Instr) : (startEngine i s).ie = s.ie := rfl
@[simp] theorem startEngine_done (i : Instr) : (startEngine i s).done = s.done := rfl
@[simp] theorem startEngine_err (i : Instr) : (startEngine i s).err = s.err := rfl
@[simp] theorem startEngine_proto (i : Instr) : (startEngine i s).proto = s.proto := rfl
@[simp] theorem startEngine_errCode (i : Instr) : (startEngine i s).errCode = s.errCode := rfl
@[simp] theorem startEngine_width (i : Instr) : (startEngine i s).width = s.width := rfl
@[simp] theorem startEngine_height (i : Instr) : (startEngine i s).height = s.height := rfl
@[simp] theorem startEngine_len (i : Instr) : (startEngine i s).len = s.len := rfl
@[simp] theorem startEngine_cmd (i : Instr) : (startEngine i s).cmd = s.cmd := rfl
@[simp] theorem startEngine_mode (i : Instr) : (startEngine i s).mode = .busy := rfl
@[simp] theorem startEngine_cur (i : Instr) : (startEngine i s).cur = startCursor i s.w s.h := rfl
@[simp] theorem startEngine_script (i : Instr) : (startEngine i s).script = s.script := rfl
@[simp] theorem startEngine_position (i : Instr) : (startEngine i s).position = s.position := rfl
@[simp] theorem startEngine_reads (i : Instr) : (startEngine i s).reads = s.reads := rfl
@[simp] theorem startEngine_rejected (i : Instr) : (startEngine i s).rejected = s.rejected := rfl
@[simp] theorem startEngine_turns (i : Instr) : (startEngine i s).turns = s.turns := rfl
@[simp] theorem startEngine_w (i : Instr) : (startEngine i s).w = s.w := rfl
@[simp] theorem startEngine_h (i : Instr) : (startEngine i s).h = s.h := rfl

@[simp] theorem captureSnap_params : (captureSnap s).params = s.params := rfl
@[simp] theorem captureSnap_pm : (captureSnap s).pm = s.pm := rfl
@[simp] theorem captureSnap_snap : (captureSnap s).snap = Memory.copyBelow (imageBytes s.w s.h) s.pm s.snap := rfl
@[simp] theorem captureSnap_ie : (captureSnap s).ie = s.ie := rfl
@[simp] theorem captureSnap_done : (captureSnap s).done = s.done := rfl
@[simp] theorem captureSnap_err : (captureSnap s).err = s.err := rfl
@[simp] theorem captureSnap_proto : (captureSnap s).proto = s.proto := rfl
@[simp] theorem captureSnap_errCode : (captureSnap s).errCode = s.errCode := rfl
@[simp] theorem captureSnap_width : (captureSnap s).width = s.width := rfl
@[simp] theorem captureSnap_height : (captureSnap s).height = s.height := rfl
@[simp] theorem captureSnap_len : (captureSnap s).len = s.len := rfl
@[simp] theorem captureSnap_cmd : (captureSnap s).cmd = s.cmd := rfl
@[simp] theorem captureSnap_mode : (captureSnap s).mode = s.mode := rfl
@[simp] theorem captureSnap_cur : (captureSnap s).cur = s.cur := rfl
@[simp] theorem captureSnap_script : (captureSnap s).script = s.script := rfl
@[simp] theorem captureSnap_position : (captureSnap s).position = s.position := rfl
@[simp] theorem captureSnap_reads : (captureSnap s).reads = s.reads := rfl
@[simp] theorem captureSnap_rejected : (captureSnap s).rejected = s.rejected := rfl
@[simp] theorem captureSnap_turns : (captureSnap s).turns = s.turns := rfl
@[simp] theorem captureSnap_w : (captureSnap s).w = s.w := rfl
@[simp] theorem captureSnap_h : (captureSnap s).h = s.h := rfl

@[simp] theorem complete_params : (complete s).params = s.params := rfl
@[simp] theorem complete_pm : (complete s).pm = s.pm := rfl
@[simp] theorem complete_snap : (complete s).snap = s.snap := rfl
@[simp] theorem complete_ie : (complete s).ie = s.ie := rfl
@[simp] theorem complete_done : (complete s).done = true := rfl
@[simp] theorem complete_err : (complete s).err = s.err := rfl
@[simp] theorem complete_proto : (complete s).proto = s.proto := rfl
@[simp] theorem complete_errCode : (complete s).errCode = s.errCode := rfl
@[simp] theorem complete_width : (complete s).width = s.width := rfl
@[simp] theorem complete_height : (complete s).height = s.height := rfl
@[simp] theorem complete_len : (complete s).len = s.len := rfl
@[simp] theorem complete_cmd : (complete s).cmd = s.cmd := rfl
@[simp] theorem complete_mode : (complete s).mode = .idle := rfl
@[simp] theorem complete_cur : (complete s).cur = s.cur := rfl
@[simp] theorem complete_script : (complete s).script = s.script := rfl
@[simp] theorem complete_position : (complete s).position = s.position := rfl
@[simp] theorem complete_reads : (complete s).reads = s.reads := rfl
@[simp] theorem complete_rejected : (complete s).rejected = s.rejected := rfl
@[simp] theorem complete_turns : (complete s).turns = s.turns := rfl
@[simp] theorem complete_w : (complete s).w = s.w := rfl
@[simp] theorem complete_h : (complete s).h = s.h := rfl

@[simp] theorem resetEngine_params (pm snap : Memory) : (resetEngine pm snap s).params = s.params := rfl
@[simp] theorem resetEngine_pm (pm snap : Memory) : (resetEngine pm snap s).pm = Memory.draw s.params.pixmemBytes [] pm := rfl
@[simp] theorem resetEngine_snap (pm snap : Memory) : (resetEngine pm snap s).snap = Memory.draw s.params.pixmemBytes [] snap := rfl
@[simp] theorem resetEngine_ie (pm snap : Memory) : (resetEngine pm snap s).ie = false := rfl
@[simp] theorem resetEngine_done (pm snap : Memory) : (resetEngine pm snap s).done = false := rfl
@[simp] theorem resetEngine_err (pm snap : Memory) : (resetEngine pm snap s).err = false := rfl
@[simp] theorem resetEngine_proto (pm snap : Memory) : (resetEngine pm snap s).proto = false := rfl
@[simp] theorem resetEngine_errCode (pm snap : Memory) : (resetEngine pm snap s).errCode = 0 := rfl
@[simp] theorem resetEngine_width (pm snap : Memory) : (resetEngine pm snap s).width = 0 := rfl
@[simp] theorem resetEngine_height (pm snap : Memory) : (resetEngine pm snap s).height = 0 := rfl
@[simp] theorem resetEngine_len (pm snap : Memory) : (resetEngine pm snap s).len = 0 := rfl
@[simp] theorem resetEngine_cmd (pm snap : Memory) : (resetEngine pm snap s).cmd = 0 := rfl
@[simp] theorem resetEngine_mode (pm snap : Memory) : (resetEngine pm snap s).mode = .idle := rfl
@[simp] theorem resetEngine_cur (pm snap : Memory) : (resetEngine pm snap s).cur = .fin := rfl
@[simp] theorem resetEngine_script (pm snap : Memory) : (resetEngine pm snap s).script = s.script := rfl
@[simp] theorem resetEngine_position (pm snap : Memory) : (resetEngine pm snap s).position = s.position := rfl
@[simp] theorem resetEngine_reads (pm snap : Memory) : (resetEngine pm snap s).reads = s.reads := rfl
@[simp] theorem resetEngine_rejected (pm snap : Memory) : (resetEngine pm snap s).rejected = s.rejected := rfl
@[simp] theorem resetEngine_turns (pm snap : Memory) : (resetEngine pm snap s).turns = s.turns := rfl

@[simp] theorem receive_params (v : Word) : (receive v s).params = s.params := rfl
@[simp] theorem receive_pm (v : Word) : (receive v s).pm = s.pm := rfl
@[simp] theorem receive_snap (v : Word) : (receive v s).snap = s.snap := rfl
@[simp] theorem receive_ie (v : Word) : (receive v s).ie = s.ie := rfl
@[simp] theorem receive_done (v : Word) : (receive v s).done = s.done := rfl
@[simp] theorem receive_err (v : Word) : (receive v s).err = s.err := rfl
@[simp] theorem receive_proto (v : Word) : (receive v s).proto = s.proto := rfl
@[simp] theorem receive_errCode (v : Word) : (receive v s).errCode = s.errCode := rfl
@[simp] theorem receive_width (v : Word) : (receive v s).width = s.width := rfl
@[simp] theorem receive_height (v : Word) : (receive v s).height = s.height := rfl
@[simp] theorem receive_len (v : Word) : (receive v s).len = s.len := rfl
@[simp] theorem receive_cmd (v : Word) : (receive v s).cmd = s.cmd := rfl
@[simp] theorem receive_mode (v : Word) : (receive v s).mode = s.mode := rfl
@[simp] theorem receive_cur (v : Word) : (receive v s).cur = s.cur := rfl
@[simp] theorem receive_script (v : Word) : (receive v s).script = s.script := rfl
@[simp] theorem receive_position (v : Word) : (receive v s).position = s.position := rfl
@[simp] theorem receive_reads (v : Word) : (receive v s).reads = s.reads ++ [v] := rfl
@[simp] theorem receive_rejected (v : Word) : (receive v s).rejected = s.rejected := rfl
@[simp] theorem receive_turns (v : Word) : (receive v s).turns = s.turns := rfl
@[simp] theorem receive_w (v : Word) : (receive v s).w = s.w := rfl
@[simp] theorem receive_h (v : Word) : (receive v s).h = s.h := rfl

@[simp] theorem takeStmt_params (rest : List HostStmt) : (takeStmt rest s).params = s.params := rfl
@[simp] theorem takeStmt_pm (rest : List HostStmt) : (takeStmt rest s).pm = s.pm := rfl
@[simp] theorem takeStmt_snap (rest : List HostStmt) : (takeStmt rest s).snap = s.snap := rfl
@[simp] theorem takeStmt_ie (rest : List HostStmt) : (takeStmt rest s).ie = s.ie := rfl
@[simp] theorem takeStmt_done (rest : List HostStmt) : (takeStmt rest s).done = s.done := rfl
@[simp] theorem takeStmt_err (rest : List HostStmt) : (takeStmt rest s).err = s.err := rfl
@[simp] theorem takeStmt_proto (rest : List HostStmt) : (takeStmt rest s).proto = s.proto := rfl
@[simp] theorem takeStmt_errCode (rest : List HostStmt) : (takeStmt rest s).errCode = s.errCode := rfl
@[simp] theorem takeStmt_width (rest : List HostStmt) : (takeStmt rest s).width = s.width := rfl
@[simp] theorem takeStmt_height (rest : List HostStmt) : (takeStmt rest s).height = s.height := rfl
@[simp] theorem takeStmt_len (rest : List HostStmt) : (takeStmt rest s).len = s.len := rfl
@[simp] theorem takeStmt_cmd (rest : List HostStmt) : (takeStmt rest s).cmd = s.cmd := rfl
@[simp] theorem takeStmt_mode (rest : List HostStmt) : (takeStmt rest s).mode = s.mode := rfl
@[simp] theorem takeStmt_cur (rest : List HostStmt) : (takeStmt rest s).cur = s.cur := rfl
@[simp] theorem takeStmt_script (rest : List HostStmt) : (takeStmt rest s).script = rest := rfl
@[simp] theorem takeStmt_position (rest : List HostStmt) : (takeStmt rest s).position = s.position + 1 := rfl
@[simp] theorem takeStmt_reads (rest : List HostStmt) : (takeStmt rest s).reads = s.reads := rfl
@[simp] theorem takeStmt_rejected (rest : List HostStmt) : (takeStmt rest s).rejected = s.rejected := rfl
@[simp] theorem takeStmt_turns (rest : List HostStmt) : (takeStmt rest s).turns = s.turns := rfl
@[simp] theorem takeStmt_w (rest : List HostStmt) : (takeStmt rest s).w = s.w := rfl
@[simp] theorem takeStmt_h (rest : List HostStmt) : (takeStmt rest s).h = s.h := rfl

@[simp] theorem takeTurn_params : (takeTurn s).params = s.params := rfl
@[simp] theorem takeTurn_pm : (takeTurn s).pm = s.pm := rfl
@[simp] theorem takeTurn_snap : (takeTurn s).snap = s.snap := rfl
@[simp] theorem takeTurn_ie : (takeTurn s).ie = s.ie := rfl
@[simp] theorem takeTurn_done : (takeTurn s).done = s.done := rfl
@[simp] theorem takeTurn_err : (takeTurn s).err = s.err := rfl
@[simp] theorem takeTurn_proto : (takeTurn s).proto = s.proto := rfl
@[simp] theorem takeTurn_errCode : (takeTurn s).errCode = s.errCode := rfl
@[simp] theorem takeTurn_width : (takeTurn s).width = s.width := rfl
@[simp] theorem takeTurn_height : (takeTurn s).height = s.height := rfl
@[simp] theorem takeTurn_len : (takeTurn s).len = s.len := rfl
@[simp] theorem takeTurn_cmd : (takeTurn s).cmd = s.cmd := rfl
@[simp] theorem takeTurn_mode : (takeTurn s).mode = s.mode := rfl
@[simp] theorem takeTurn_cur : (takeTurn s).cur = s.cur := rfl
@[simp] theorem takeTurn_script : (takeTurn s).script = s.script := rfl
@[simp] theorem takeTurn_position : (takeTurn s).position = s.position := rfl
@[simp] theorem takeTurn_reads : (takeTurn s).reads = s.reads := rfl
@[simp] theorem takeTurn_rejected : (takeTurn s).rejected = s.rejected := rfl
@[simp] theorem takeTurn_turns : (takeTurn s).turns = s.turns.tail := rfl
@[simp] theorem takeTurn_w : (takeTurn s).w = s.w := rfl
@[simp] theorem takeTurn_h : (takeTurn s).h = s.h := rfl

end Sys2Proof.Machine
end

