-- ==== Sys2Proof/Laws/Ops.lean ====
section
/-! SUPPORT. What the shared operations of an engine step answer: byte accesses, pixel loads and stores, and the
colour of each kind of command on an image that fits in PM. -/

namespace Sys2Proof.Machine

theorem memRead_ok {s : State} {a : Nat} (h : a < s.params.pixmemBytes) : memRead s a = .ok (s.pm.read a) := by
  simp [memRead, h]

theorem snapRead_ok {s : State} {a : Nat} (h : a < s.params.pixmemBytes) : snapRead s a = .ok (s.snap.read a) := by
  simp [snapRead, h]

theorem memWrite_ok {s : State} {a : Nat} (h : a < s.params.pixmemBytes) (v : Byte) :
    memWrite s a v = .ok (setPm (s.pm.write a v) s) := by
  simp [memWrite, h]

/-- The address of a byte of a pixel of the image lies inside the image (R61). -/
theorem pixelAddr_lt {w h x y ch : Nat} (hx : x < w) (hy : y < h) (hc : ch < 4) : pixelAddr w x y ch < imageBytes w h := by
  unfold pixelAddr imageBytes
  have h1 : (y + 1) * w ≤ h * w := Nat.mul_le_mul_right w hy
  have h2 : (y + 1) * w = y * w + w := by ring
  have h3 : 4 * w * h = 4 * (h * w) := by ring
  omega

/-- Different bytes of the image have different addresses. -/
theorem pixelAddr_inj {w x y ch x' y' ch' : Nat} (hx : x < w) (hx' : x' < w) (hc : ch < 4) (hc' : ch' < 4)
    (h : pixelAddr w x y ch = pixelAddr w x' y' ch') : x = x' ∧ y = y' ∧ ch = ch' := by
  unfold pixelAddr at h
  have hc2 : ch = ch' := by omega
  have h1 : y * w + x = y' * w + x' := by omega
  have hy : y = y' := by
    rcases Nat.lt_trichotomy y y' with hlt | heq | hlt
    · have : (y + 1) * w ≤ y' * w := Nat.mul_le_mul_right w hlt
      have : (y + 1) * w = y * w + w := by ring
      omega
    · exact heq
    · have : (y' + 1) * w ≤ y * w := Nat.mul_le_mul_right w hlt
      have : (y' + 1) * w = y' * w + w := by ring
      omega
  subst hy
  exact ⟨by omega, rfl, hc2⟩

/-- A pixel of the scan is a pixel of the image. -/
theorem inScan_image {i : Instr} {w h y x : Nat} (hs : inScan i w h y x = true) : x < w ∧ y < h := by
  unfold inScan at hs
  split at hs
  · have := of_decide_eq_true hs; omega
  · exact of_decide_eq_true hs

theorem inScan_interior {w h y x : Nat} : inScan .blur w h y x = true ↔ 1 ≤ x ∧ x + 1 < w ∧ 1 ≤ y ∧ y + 1 < h := by
  simp [inScan, scansInterior]

/-- The three colour bytes of a pixel of an image that fits. -/
theorem loadRgb_ok {s : State} {x y : Nat} (hx : x < s.w) (hy : y < s.h) (hf : imageBytes s.w s.h ≤ s.params.pixmemBytes) :
    loadRgb (memRead s) s.w x y = .ok (rgbAt s.pm s.w x y) := by
  have h : ∀ ch < 4, pixelAddr s.w x y ch < s.params.pixmemBytes := fun ch hc =>
    Nat.lt_of_lt_of_le (pixelAddr_lt hx hy hc) hf
  simp only [loadRgb, memRead_ok (h 0 (by omega)), memRead_ok (h 1 (by omega)), memRead_ok (h 2 (by omega))]
  rfl

/-- Storing a pixel of an image that fits changes PM only, in the pixel's three colour bytes. -/
theorem storeRgb_ok {s : State} {x y : Nat} (hx : x < s.w) (hy : y < s.h) (hf : imageBytes s.w s.h ≤ s.params.pixmemBytes)
    (c : Rgb) : storeRgb s x y c = .ok (setPm (putRgb s.pm s.w x y c) s) := by
  have h : ∀ ch < 4, pixelAddr s.w x y ch < s.params.pixmemBytes := fun ch hc =>
    Nat.lt_of_lt_of_le (pixelAddr_lt hx hy hc) hf
  simp only [storeRgb, memWrite_ok (h 0 (by omega)), bind, Except.bind]
  rw [memWrite_ok (by simpa using h 1 (by omega))]
  simp only []
  rw [memWrite_ok (by simpa using h 2 (by omega))]
  rfl

theorem pointColour_ok {s : State} {x y : Nat} (hx : x < s.w) (hy : y < s.h) (hf : imageBytes s.w s.h ≤ s.params.pixmemBytes)
    (f : Rgb → Rgb) : pointColour f x y s = .ok (f (rgbAt s.pm s.w x y)) := by
  unfold pointColour
  rw [loadRgb_ok hx hy hf]
  rfl

theorem neighbour_lt {base off half bound v : Nat} (h : neighbour base off half bound = some v) : v < bound := by
  unfold neighbour at h
  split at h
  · simp at h; omega
  · simp at h

/-- Every surviving term of a kernel row reads a column of the image, in the given row. -/
theorem mem_rowTaps {α : Type} {w half x yy kx : Nat} {ks : List α} {t : Tap α} (h : t ∈ rowTaps w half x yy kx ks) :
    t.x < w ∧ t.y = yy := by
  induction ks generalizing kx with
  | nil => simp [rowTaps] at h
  | cons k ks ih =>
    unfold rowTaps at h
    split at h
    · next hn =>
      rcases List.mem_cons.1 h with rfl | h
      · exact ⟨neighbour_lt hn, rfl⟩
      · exact ih h
    · exact ih h

/-- Every surviving term of a kernel sum reads a pixel of the image (R153). -/
theorem mem_kernelTaps {α : Type} {w h half x y ky : Nat} {rows : List (List α)} {t : Tap α}
    (ht : t ∈ kernelTaps w h half x y ky rows) : t.x < w ∧ t.y < h := by
  induction rows generalizing ky with
  | nil => simp [kernelTaps] at ht
  | cons row rows ih =>
    unfold kernelTaps at ht
    split at ht
    · next hn =>
      rcases List.mem_append.1 ht with h1 | h1
      · have := mem_rowTaps h1
        exact ⟨this.1, this.2 ▸ neighbour_lt hn⟩
      · exact ih h1
    · exact ih ht

/-- A kernel sum whose reads all succeed. -/
theorem sumTaps_ok {rd : Nat → Except Fault Byte} {m : Memory} {w ch : Nat} (acc : Int) {taps : List (Tap Int)}
    (h : ∀ t ∈ taps, rd (pixelAddr w t.x t.y ch) = .ok (m.read (pixelAddr w t.x t.y ch))) :
    sumTaps rd w ch acc taps =
      .ok (acc + (taps.map (fun t => ((m.read (pixelAddr w t.x t.y ch)).toNat : Int) * t.weight)).sum) := by
  induction taps generalizing acc with
  | nil => simp [sumTaps]
  | cons t taps ih =>
    simp only [sumTaps, h t (by simp), bind, Except.bind]
    rw [ih _ (fun u hu => h u (by simp [hu]))]
    simp [Int.add_assoc]

theorem sharpenColour_ok {s : State} {x y : Nat} (hf : imageBytes s.w s.h ≤ s.params.pixmemBytes) (t : Tie) :
    sharpenColour t x y s = .ok ⟨sharpenByte t s.snap s.w s.h x y 0, sharpenByte t s.snap s.w s.h x y 1,
      sharpenByte t s.snap s.w s.h x y 2⟩ := by
  have h : ∀ ch < 4, ∀ tap ∈ sharpenTaps s.w s.h x y,
      snapRead s (pixelAddr s.w tap.x tap.y ch) = .ok (s.snap.read (pixelAddr s.w tap.x tap.y ch)) := fun ch hc tap ht => by
    have := mem_kernelTaps ht
    exact snapRead_ok (Nat.lt_of_lt_of_le (pixelAddr_lt this.1 this.2 hc) hf)
  simp only [sharpenColour, sumTaps_ok 0 (h 0 (by omega)), sumTaps_ok 0 (h 1 (by omega)), sumTaps_ok 0 (h 2 (by omega)),
    bind, Except.bind, pure, Except.pure, Int.zero_add]
  rfl

theorem blurColour_ok {s : State} {x y : Nat} (hs : inScan .blur s.w s.h y x = true)
    (hf : imageBytes s.w s.h ≤ s.params.pixmemBytes) (t : Tie) :
    blurColour t x y s = .ok ⟨blurByte t s.pm s.w x y 0, blurByte t s.pm s.w x y 1, blurByte t s.pm s.w x y 2⟩ := by
  rw [inScan_interior] at hs
  have h : ∀ ch < 4, blurChannel t x y ch s = .ok (blurByte t s.pm s.w x y ch) := fun ch hc => by
    have a : ∀ x' y', x' < s.w → y' < s.h → memRead s (pixelAddr s.w x' y' ch) = .ok (s.pm.read (pixelAddr s.w x' y' ch)) :=
      fun x' y' hx hy => memRead_ok (Nat.lt_of_lt_of_le (pixelAddr_lt hx hy hc) hf)
    simp only [blurChannel, a (x - 1) y (by omega) (by omega), a (x + 1) y (by omega) (by omega),
      a x (y - 1) (by omega) (by omega), a x (y + 1) (by omega) (by omega), bind, Except.bind, pure, Except.pure]
    rfl
  simp only [blurColour, h 0 (by omega), h 1 (by omega), h 2 (by omega), bind, Except.bind, pure, Except.pure]

/-- What a pixel store leaves at each address. -/
theorem read_putRgb {m : Memory} (hm : m.wf) (w x y : Nat) (c : Rgb) (a : Nat) :
    (putRgb m w x y c).read a =
      if a = pixelAddr w x y 0 then c.r else if a = pixelAddr w x y 1 then c.g
      else if a = pixelAddr w x y 2 then c.b else m.read a := by
  have h1 := Memory.write_wf hm (pixelAddr w x y 0) c.r
  have h2 := Memory.write_wf h1 (pixelAddr w x y 1) c.g
  unfold putRgb
  rw [Memory.read_write h2, Memory.read_write h1, Memory.read_write hm]
  have e1 : pixelAddr w x y 1 = pixelAddr w x y 0 + 1 := rfl
  have e2 : pixelAddr w x y 2 = pixelAddr w x y 0 + 2 := rfl
  rw [e1, e2]
  generalize pixelAddr w x y 0 = p
  by_cases h0 : a = p
  · have n1 : p + 1 ≠ a := by omega
    have n2 : p + 2 ≠ a := by omega
    rw [if_neg n2, if_neg n1, if_pos h0.symm, if_pos h0]
  · by_cases h1 : a = p + 1
    · have n2 : p + 2 ≠ a := by omega
      rw [if_neg n2, if_pos h1.symm, if_neg h0, if_pos h1]
    · by_cases h2 : a = p + 2
      · rw [if_pos h2.symm, if_neg h0, if_neg h1, if_pos h2]
      · rw [if_neg (Ne.symm h2), if_neg (Ne.symm h1), if_neg (Ne.symm h0), if_neg h0, if_neg h1, if_neg h2]

/-- A pixel store leaves every byte but the pixel's three colour bytes alone, on any memory. -/
theorem read_putRgb_other (m : Memory) {w x y a : Nat} (c : Rgb) (h : a < pixelAddr w x y 0 ∨ pixelAddr w x y 2 < a) :
    (putRgb m w x y c).read a = m.read a := by
  simp only [pixelAddr] at h
  unfold putRgb
  rw [Memory.read_write_other, Memory.read_write_other, Memory.read_write_other] <;> simp only [pixelAddr] <;> omega

theorem putRgb_wf {m : Memory} (hm : m.wf) (w x y : Nat) (c : Rgb) : (putRgb m w x y c).wf :=
  Memory.write_wf (Memory.write_wf (Memory.write_wf hm _ _) _ _) _ _

theorem putRgb_below {m : Memory} {n w h x y : Nat} (hm : m.below n) (hx : x < w) (hy : y < h) (hf : imageBytes w h ≤ n)
    (c : Rgb) : (putRgb m w x y c).below n := by
  have a : ∀ ch < 4, pixelAddr w x y ch < n := fun ch hc => Nat.lt_of_lt_of_le (pixelAddr_lt hx hy hc) hf
  exact Memory.write_below (Memory.write_below (Memory.write_below hm (a 0 (by omega)) _) (a 1 (by omega)) _)
    (a 2 (by omega)) _

end Sys2Proof.Machine
end

