-- ==== Sys2Proof/Laws/Command.lean ====
section
/-! SUPPORT. One step of a command, said once: its issue, its completion step, its pixel step on an image that fits, and
everything it can be when it answers a next state. -/

namespace Sys2Proof.Machine

/-- The colour computation of each command. -/
def colourOf (t : Tie) : Instr → Colour
  | .invert => pointColour (filterInvert t)
  | .blackAndWhite => pointColour (filterBlackAndWhite t)
  | .sepia => pointColour (filterSepia t)
  | .brightness => pointColour (filterBrightness t)
  | .contrast => pointColour (filterContrast t)
  | .threshold => pointColour filterThreshold
  | .hueRotate => pointColour (filterHueRotate t)
  | .saturate => pointColour (filterSaturate t)
  | .colorize => pointColour (filterColorize t)
  | .sharpen => sharpenColour t
  | .blur => blurColour t

/-- Every arm of exec is the shared command step with the command's own colour. -/
theorem exec_eq (i : Instr) (s : State) : exec i s = commandStep i (colourOf s.params.tie i) s := by
  cases i <;> rfl

/-- The colour computation answers the pure colour of Apply.lean on an image that fits. -/
theorem colourOf_ok {i : Instr} {s : State} {y x : Nat} (hs : inScan i s.w s.h y x = true)
    (hf : imageBytes s.w s.h ≤ s.params.pixmemBytes) (t : Tie) :
    colourOf t i x y s = .ok (pixelColour t i s.w s.h s.snap s.pm y x) := by
  have hp := inScan_image hs
  cases i <;>
    first
    | exact sharpenColour_ok hf t
    | exact blurColour_ok hs hf t
    | exact pointColour_ok hp.1 hp.2 hf _

/-- While IDLE a command's step is its issue. -/
theorem exec_idle {i : Instr} {s : State} (h : s.mode = .idle) : exec i s = .next (issue i s) := by
  rw [exec_eq]; simp [commandStep, h]

/-- While BUSY with the cursor at its end a command's step is the completion step. -/
theorem exec_fin {i : Instr} {s : State} (h : s.mode = .busy) (hc : s.cur = .fin) : exec i s = .next (complete s) := by
  rw [exec_eq]; simp [commandStep, engineStep, h, hc]

/-- While BUSY at a pixel of its scan a command stores that pixel's colour and advances the cursor. -/
theorem exec_pix {i : Instr} {s : State} {y x : Nat} (h : s.mode = .busy) (hc : s.cur = .pix y x)
    (hs : inScan i s.w s.h y x = true) (hf : imageBytes s.w s.h ≤ s.params.pixmemBytes) :
    exec i s = .next (setCur (nextCursor i s.w s.h y x)
      (setPm (putRgb s.pm s.w x y (pixelColour s.params.tie i s.w s.h s.snap s.pm y x)) s)) := by
  have hp := inScan_image hs
  rw [exec_eq]
  simp only [commandStep, engineStep, h, hc, hs, if_true, pixelStep, colourOf_ok hs hf, storeRgb_ok hp.1 hp.2 hf,
    bind, Except.bind, pure, Except.pure, toOutcome]

/-- A pixel store that succeeds changes PM only. -/
theorem storeRgb_next {s t : State} {x y : Nat} {c : Rgb} (h : storeRgb s x y c = .ok t) :
    t = setPm (putRgb s.pm s.w x y c) s ∧ pixelAddr s.w x y 2 < s.params.pixmemBytes := by
  by_cases h0 : pixelAddr s.w x y 0 < s.params.pixmemBytes
  · by_cases h1 : pixelAddr s.w x y 1 < s.params.pixmemBytes
    · by_cases h2 : pixelAddr s.w x y 2 < s.params.pixmemBytes
      · simp [storeRgb, memWrite, h0, h1, h2, bind, Except.bind] at h
        exact ⟨h.symm, h2⟩
      · simp [storeRgb, memWrite, h0, h1, h2, bind, Except.bind] at h
    · simp [storeRgb, memWrite, h0, h1, bind, Except.bind] at h
  · simp [storeRgb, memWrite, h0, bind, Except.bind] at h

/-- Everything a command's step can be when it answers a next state. -/
theorem exec_next_cases {i : Instr} {s t : State} (h : exec i s = .next t) :
    (s.mode = .idle ∧ t = issue i s) ∨
    (s.mode = .busy ∧ s.cur = .fin ∧ t = complete s) ∨
    (s.mode = .busy ∧ ∃ y x c, s.cur = .pix y x ∧ inScan i s.w s.h y x = true ∧
      pixelAddr s.w x y 2 < s.params.pixmemBytes ∧
      t = setCur (nextCursor i s.w s.h y x) (setPm (putRgb s.pm s.w x y c) s)) := by
  rw [exec_eq] at h
  unfold commandStep at h
  split at h
  · next hm => exact .inl ⟨hm, by simpa using h.symm⟩
  · next hm =>
    unfold engineStep at h
    split at h
    · next hc => exact .inr (.inl ⟨hm, hc, by simpa using h.symm⟩)
    · next y x hc =>
      split at h
      · next hs =>
        unfold pixelStep at h
        cases h1 : colourOf s.params.tie i x y s with
        | error e => simp [h1, bind, Except.bind, toOutcome] at h
        | ok c =>
          cases h2 : storeRgb s x y c with
          | error e => simp [h1, h2, bind, Except.bind, toOutcome] at h
          | ok u =>
            obtain ⟨rfl, hlt⟩ := storeRgb_next h2
            refine .inr (.inr ⟨hm, y, x, c, hc, hs, hlt, ?_⟩)
            simpa [h1, h2, bind, Except.bind, pure, Except.pure, toOutcome] using h.symm
      · cases h

/-- No command is refused. -/
theorem exec_not_refused (i : Instr) (s : State) (r : Refusal) : exec i s ≠ .refused r := by
  rw [exec_eq]
  unfold commandStep engineStep toOutcome
  repeat' split
  all_goals simp

/-- What an issue leaves: the error of the first failing check, or the engine started. -/
theorem issue_cases (i : Instr) (s : State) :
    (∃ e, issueError i (beginIssue (encode i) s) = some e ∧ issue i s = raiseError e (beginIssue (encode i) s)) ∨
    (issueError i (beginIssue (encode i) s) = none ∧
      issue i s = startEngine i (if usesKernel i then captureSnap (beginIssue (encode i) s) else beginIssue (encode i) s)) := by
  unfold issue
  cases h : issueError i (beginIssue (encode i) s) with
  | none => exact .inr ⟨rfl, by simp [h]⟩
  | some e => exact .inl ⟨e, rfl, by simp [h]⟩

/-- The ROM kernel is valid, so the checks of a legal command are the three on the image (R150, R171). -/
theorem issueError_eq (i : Instr) (s : State) :
    issueError i s =
      if s.w = 0 ∨ s.h = 0 then some .zeroDimension
      else if imageBytes s.w s.h ≠ s.len.toNat then some .dimensionMismatch
      else if s.params.pixmemBytes < imageBytes s.w s.h then some .capacity
      else none := by
  have h : kernelValid Rom.sharpenK = true := by decide
  simp [issueError, h]

/-- The issue checks pass exactly on the images the spec accepts. -/
theorem issueError_none_iff (i : Instr) (s : State) :
    issueError i s = none ↔
      0 < s.w ∧ 0 < s.h ∧ imageBytes s.w s.h = s.len.toNat ∧ imageBytes s.w s.h ≤ s.params.pixmemBytes := by
  rw [issueError_eq]
  split_ifs <;> simp <;> omega

end Sys2Proof.Machine
end

