-- ==== Sys2Proof/Laws/Encoding.lean ====
section
/-! SUPPORT. The decoder and the encoder agree (spec/30_encoding.md R92, R93). -/

namespace Sys2Proof

/-- A word that matches, matches a row of the table. -/
theorem matchRow_mem {w : Word} {i : Instr} {rows : List OpcodeRow} (h : matchRow w rows = some i) :
    ∃ row ∈ rows, w &&& row.mask = row.value ∧ row.instr = i := by
  induction rows with
  | nil => simp [matchRow] at h
  | cons row rows ih =>
    unfold matchRow at h
    split at h
    · next hm => exact ⟨row, by simp, hm, by simpa using h⟩
    · obtain ⟨r, hr, hw⟩ := ih h
      exact ⟨r, by simp [hr], hw⟩

/-- Every row of the table matches the whole word against the command word of its instruction. -/
theorem opcodeRows_encode : ∀ row ∈ opcodeRows, row.mask = BitVec.allOnes 32 ∧ row.value = encode row.instr := by decide

theorem matchRow_encode {w : Word} {i : Instr} (h : matchRow w opcodeRows = some i) : w = encode i := by
  obtain ⟨row, hr, hw, rfl⟩ := matchRow_mem h
  obtain ⟨hmask, hval⟩ := opcodeRows_encode row hr
  rw [hmask, BitVec.and_allOnes, hval] at hw
  exact hw

theorem decode_ok {w : Word} {i : Instr} (h : decode w = .ok i) : w = encode i := by
  unfold decode at h
  split at h
  · next j hj =>
    simp at h; subst h; exact matchRow_encode hj
  · split at h <;> simp at h

theorem decode_encode (i : Instr) : decode (encode i) = .ok i := by
  cases i <;> decide

theorem decodeKind_encode (i : Instr) : decodeKind (encode i) = .ok i := by
  cases i <;> decide

theorem encode_injective {i j : Instr} (h : encode i = encode j) : i = j := by
  have := (decode_encode i).symm.trans (h ▸ decode_encode j)
  simpa using this

end Sys2Proof
end

