-- ==== Sys2Proof/Laws/Step.lean ====
section
/-! SUPPORT. One step of the machine, said once: by the agent whose turn it is, and by the host's statement. -/

namespace Sys2Proof.Machine

theorem step_host {s : State} (h : nextTurn s = .host) : step s = hostStep (takeTurn s) := by
  simp [step, h]

theorem step_engine {s : State} (h : nextTurn s = .engine) : step s = engineTurn (takeTurn s) := by
  simp [step, h]

theorem step_reset {s : State} {pm snap : Memory} (h : nextTurn s = .reset pm snap) :
    step s = .next (resetEngine pm snap (takeTurn s)) := by
  simp [step, h]

/-- A reset turn is an entry of the schedule. -/
theorem nextTurn_reset_mem {s : State} {pm snap : Memory} (h : nextTurn s = .reset pm snap) : .reset pm snap ∈ s.turns := by
  unfold nextTurn at h
  split at h
  · next t ts ht => rw [ht, h]; simp
  · split at h <;> cases h

@[simp] theorem busy_eq (s : State) : s.busy = true ↔ s.mode = .busy := by simp [State.busy]

@[simp] theorem busy_false (s : State) : s.busy = false ↔ s.mode = .idle := by
  unfold State.busy; cases s.mode <;> simp

/-- Bit 0 of `STATUS` is `BUSY` (R29). -/
@[simp] theorem statusWord_busy (s : State) : (statusWord s).getLsbD 0 = s.busy := by
  simp only [statusWord, BitVec.getLsbD_append, BitVec.getLsbD_ofBool]
  simp

/-- An engine turn of a busy engine steps the command in `CMD[7:0]`. -/
theorem engineTurn_busy {s : State} {i : Instr} (hm : s.mode = .busy) (hc : decodeKind s.cmd = .ok i) :
    engineTurn s = exec i s := by
  simp [engineTurn, hm, hc]

theorem engineTurn_idle {s : State} (hm : s.mode = .idle) : engineTurn s = .next s := by
  simp [engineTurn, hm]

/-- Whose step it was and what it did, when a step answers a next state. -/
theorem step_next_cases {s t : State} (h : step s = .next t) :
    (nextTurn s = .host ∧ hostStep (takeTurn s) = .next t) ∨
    (nextTurn s = .engine ∧ engineTurn (takeTurn s) = .next t) ∨
    (∃ pm snap, nextTurn s = .reset pm snap ∧ t = resetEngine pm snap (takeTurn s)) := by
  unfold step at h
  split at h
  · next hn => exact .inl ⟨hn, h⟩
  · next hn => exact .inr (.inl ⟨hn, h⟩)
  · next pm snap hn => exact .inr (.inr ⟨pm, snap, hn, by simpa using h.symm⟩)

/-- What an engine turn can be when it answers a next state. -/
theorem engineTurn_next_cases {s t : State} (h : engineTurn s = .next t) :
    (s.mode = .idle ∧ t = s) ∨ (s.mode = .busy ∧ s.cur = .fin ∧ t = complete s) ∨
    (s.mode = .busy ∧ ∃ i, decodeKind s.cmd = .ok i ∧ exec i s = .next t) := by
  unfold engineTurn at h
  split at h
  · next hm => exact .inl ⟨hm, by simpa using h.symm⟩
  · next hm =>
    split at h
    · next i hi => exact .inr (.inr ⟨hm, i, hi, h⟩)
    · split at h
      · next hc => exact .inr (.inl ⟨hm, hc, by simpa using h.symm⟩)
      · cases h

/-- What a write of `CMD` can be when it answers a next state. -/
theorem writeCmd_next_cases {v : Word} {s t : State} (h : writeCmd v s = .next t) :
    (s.mode = .busy ∧ t = setProto s) ∨
    (s.mode = .idle ∧ ∃ e, decode v = .error e ∧ t = issueIllegal v s) ∨
    (s.mode = .idle ∧ ∃ i, decode v = .ok i ∧ v = encode i ∧ t = issue i s) := by
  unfold writeCmd at h
  split at h
  · next hm =>
    split at h
    · next i hi =>
      rw [exec_idle hm] at h
      exact .inr (.inr ⟨hm, i, hi, decode_ok hi, by simpa using h.symm⟩)
    · next e he => exact .inr (.inl ⟨hm, e, he, by simpa using h.symm⟩)
  · next hm => exact .inl ⟨hm, by simpa using h.symm⟩

/-- A write of `CMD` always answers a next state. -/
theorem writeCmd_next (v : Word) (s : State) : ∃ t, writeCmd v s = .next t := by
  unfold writeCmd
  split
  · next hm =>
    split
    · next i _ => exact ⟨_, exec_idle hm⟩
    · exact ⟨_, rfl⟩
  · exact ⟨_, rfl⟩

/-- A host CSR write always answers a next state. -/
theorem csrWrite_next (n : Nat) (v : Word) (s : State) : ∃ t, csrWrite n v s = .next t := by
  unfold csrWrite
  split <;> first | exact ⟨_, rfl⟩ | exact writeCmd_next v s

/-- A host step always answers a next state. -/
theorem hostStep_next (s : State) : ∃ t, hostStep s = .next t := by
  unfold hostStep
  split
  · exact ⟨_, rfl⟩
  · exact ⟨_, rfl⟩
  · exact csrWrite_next _ _ _
  · exact ⟨_, rfl⟩
  · exact ⟨_, rfl⟩
  · split <;> exact ⟨_, rfl⟩

theorem pixPerformed_iff (p : Nat) (s : State) : pixPerformed p s = true ↔ s.mode = .idle ∧ p < pixcap s.params := by
  unfold pixPerformed State.busy
  cases s.mode <;> simp

/-- Everything a step can do, with the condition under which it does it. `afterTake` is the state once the turn and the
statement are taken. -/
inductive StepEffect (s : State) : State → Prop where
  | hostDone (hn : nextTurn s = .host) (hs : s.script = []) : StepEffect s (takeTurn s)
  | csrRead (n : Nat) (rest : List HostStmt) (hn : nextTurn s = .host) (hs : s.script = .csrRead n :: rest) :
      StepEffect s (receive (csrValue n s) (afterTake rest s))
  | csrIgnored (n : Nat) (v : Word) (rest : List HostStmt) (hn : nextTurn s = .host) (hs : s.script = .csrWrite n v :: rest)
      (hr : n ≤ 2 ∨ 9 ≤ n) : StepEffect s (afterTake rest s)
  | ctrl (v : Word) (rest : List HostStmt) (hn : nextTurn s = .host) (hs : s.script = .csrWrite 3 v :: rest) :
      StepEffect s { afterTake rest s with ie := v.getLsbD 0 }
  | status (v : Word) (rest : List HostStmt) (hn : nextTurn s = .host) (hs : s.script = .csrWrite 4 v :: rest) :
      StepEffect s (ackStatus v (afterTake rest s))
  | width (v : Word) (rest : List HostStmt) (hn : nextTurn s = .host) (hs : s.script = .csrWrite 5 v :: rest)
      (hm : s.mode = .idle) : StepEffect s { afterTake rest s with width := v }
  | height (v : Word) (rest : List HostStmt) (hn : nextTurn s = .host) (hs : s.script = .csrWrite 6 v :: rest)
      (hm : s.mode = .idle) : StepEffect s { afterTake rest s with height := v }
  | len (v : Word) (rest : List HostStmt) (hn : nextTurn s = .host) (hs : s.script = .csrWrite 7 v :: rest)
      (hm : s.mode = .idle) : StepEffect s { afterTake rest s with len := v }
  | writeDropped (n : Nat) (v : Word) (rest : List HostStmt) (hn : nextTurn s = .host)
      (hs : s.script = .csrWrite n v :: rest) (hr : 5 ≤ n ∧ n ≤ 8) (hm : s.mode = .busy) :
      StepEffect s (setProto (afterTake rest s))
  | illegalWord (v : Word) (rest : List HostStmt) (e : DecodeError) (hn : nextTurn s = .host)
      (hs : s.script = .csrWrite 8 v :: rest) (hm : s.mode = .idle) (hd : decode v = .error e) :
      StepEffect s (issueIllegal v (afterTake rest s))
  | issueRejected (i : Instr) (e : IssueError) (rest : List HostStmt) (hn : nextTurn s = .host)
      (hs : s.script = .csrWrite 8 (encode i) :: rest) (hm : s.mode = .idle) (he : issueError i s = some e) :
      StepEffect s (raiseError e (beginIssue (encode i) (afterTake rest s)))
  | issueAccepted (i : Instr) (rest : List HostStmt) (hn : nextTurn s = .host)
      (hs : s.script = .csrWrite 8 (encode i) :: rest) (hm : s.mode = .idle) (he : issueError i s = none) :
      StepEffect s (startEngine i (if usesKernel i then captureSnap (beginIssue (encode i) (afterTake rest s))
        else beginIssue (encode i) (afterTake rest s)))
  | pixRead (p : Nat) (rest : List HostStmt) (hn : nextTurn s = .host) (hs : s.script = .pixRead p :: rest)
      (hm : s.mode = .idle) (hp : p < pixcap s.params) :
      StepEffect s (receive (s.pm.readWord (4 * p)) (afterTake rest s))
  | pixReadDropped (p : Nat) (rest : List HostStmt) (hn : nextTurn s = .host) (hs : s.script = .pixRead p :: rest)
      (hp : ¬ (s.mode = .idle ∧ p < pixcap s.params)) : StepEffect s (receive 0 (setProto (afterTake rest s)))
  | pixWrite (p : Nat) (v : Word) (rest : List HostStmt) (hn : nextTurn s = .host) (hs : s.script = .pixWrite p v :: rest)
      (hm : s.mode = .idle) (hp : p < pixcap s.params) :
      StepEffect s (setPm (s.pm.writeWord (4 * p) v) (afterTake rest s))
  | pixWriteDropped (p : Nat) (v : Word) (rest : List HostStmt) (hn : nextTurn s = .host)
      (hs : s.script = .pixWrite p v :: rest) (hp : ¬ (s.mode = .idle ∧ p < pixcap s.params)) :
      StepEffect s (setProto (afterTake rest s))
  | waitBusy (rest : List HostStmt) (hn : nextTurn s = .host) (hs : s.script = .wait :: rest) (hm : s.mode = .busy) :
      StepEffect s (receive (csrValue 4 s) (takeTurn s))
  | waitOver (rest : List HostStmt) (hn : nextTurn s = .host) (hs : s.script = .wait :: rest) (hm : s.mode = .idle) :
      StepEffect s (receive (csrValue 4 s) (afterTake rest s))
  | engineIdle (hn : nextTurn s = .engine) (hm : s.mode = .idle) : StepEffect s (takeTurn s)
  | completion (hn : nextTurn s = .engine) (hm : s.mode = .busy) (hc : s.cur = .fin) : StepEffect s (complete (takeTurn s))
  | pixel (i : Instr) (y x : Nat) (c : Rgb) (hn : nextTurn s = .engine) (hm : s.mode = .busy)
      (hi : decodeKind s.cmd = .ok i) (hc : s.cur = .pix y x) (hs : inScan i s.w s.h y x = true)
      (ha : pixelAddr s.w x y 2 < s.params.pixmemBytes) (he : exec i (takeTurn s) = .next
        (setCur (nextCursor i s.w s.h y x) (setPm (putRgb s.pm s.w x y c) (takeTurn s)))) :
      StepEffect s (setCur (nextCursor i s.w s.h y x) (setPm (putRgb s.pm s.w x y c) (takeTurn s)))
  | reset (pm snap : Memory) (hn : nextTurn s = .reset pm snap) : StepEffect s (resetEngine pm snap (takeTurn s))

theorem hostStep_effect {s t : State} (hn : nextTurn s = .host) (h : hostStep (takeTurn s) = .next t) : StepEffect s t := by
  unfold hostStep at h
  split at h
  · next hs => cases h; exact .hostDone hn hs
  · next n rest hs => cases h; exact .csrRead n rest hn hs
  · next n v rest hs =>
    unfold csrWrite at h
    split at h
    · cases h; exact .ctrl v rest hn hs
    · cases h; exact .status v rest hn hs
    · unfold ownedWrite at h; split at h
      · next hm => cases h; exact .width v rest hn hs hm
      · next hm => cases h; exact .writeDropped 5 v rest hn hs (by omega) hm
    · unfold ownedWrite at h; split at h
      · next hm => cases h; exact .height v rest hn hs hm
      · next hm => cases h; exact .writeDropped 6 v rest hn hs (by omega) hm
    · unfold ownedWrite at h; split at h
      · next hm => cases h; exact .len v rest hn hs hm
      · next hm => cases h; exact .writeDropped 7 v rest hn hs (by omega) hm
    · rcases writeCmd_next_cases h with ⟨hm, rfl⟩ | ⟨hm, e, hd, rfl⟩ | ⟨hm, i, hd, rfl, rfl⟩
      · exact .writeDropped 8 v rest hn hs (by omega) hm
      · exact .illegalWord v rest e hn hs hm hd
      · rcases issue_cases i (takeStmt rest (takeTurn s)) with ⟨e, he, hi⟩ | ⟨he, hi⟩
        · rw [hi]; exact .issueRejected i e rest hn hs hm he
        · rw [hi]; exact .issueAccepted i rest hn hs hm he
    · next h3 h4 h5 h6 h7 h8 =>
      cases h
      have : n ≠ 3 ∧ n ≠ 4 ∧ n ≠ 5 ∧ n ≠ 6 ∧ n ≠ 7 ∧ n ≠ 8 := ⟨h3, h4, h5, h6, h7, h8⟩
      exact .csrIgnored n v rest hn hs (by omega)
  · next p rest hs =>
    cases h
    unfold pixValue pixReadState
    by_cases hp : pixPerformed p (takeTurn s) = true
    · have h2 := (pixPerformed_iff p (takeTurn s)).1 hp
      have h3 : pixPerformed p (takeStmt rest (takeTurn s)) = true := hp
      rw [if_pos hp, if_pos h3]
      exact .pixRead p rest hn hs h2.1 h2.2
    · have h2 := mt (pixPerformed_iff p (takeTurn s)).2 hp
      have h3 : ¬ pixPerformed p (takeStmt rest (takeTurn s)) = true := hp
      rw [if_neg hp, if_neg h3]
      exact .pixReadDropped p rest hn hs h2
  · next p v rest hs =>
    cases h
    unfold Sys2Proof.Machine.pixWrite
    by_cases hp : pixPerformed p (takeStmt rest (takeTurn s)) = true
    · have h2 := (pixPerformed_iff p (takeStmt rest (takeTurn s))).1 hp
      rw [if_pos hp]
      exact .pixWrite p v rest hn hs h2.1 h2.2
    · have h2 := mt (pixPerformed_iff p (takeStmt rest (takeTurn s))).2 hp
      rw [if_neg hp]
      exact .pixWriteDropped p v rest hn hs h2
  · next rest hs =>
    simp only [statusWord_busy, busy_eq] at h
    split at h
    · next hm => cases h; exact .waitBusy rest hn hs hm
    · next hm =>
      cases h
      refine .waitOver rest hn hs ?_
      simp only [takeTurn_mode] at hm
      cases hm2 : s.mode
      · rfl
      · exact absurd hm2 hm

/-- The inversion of the step: what it can do when it answers a next state. -/
theorem step_effect {s t : State} (h : step s = .next t) : StepEffect s t := by
  rcases step_next_cases h with ⟨hn, h⟩ | ⟨hn, h⟩ | ⟨pm, snap, hn, rfl⟩
  · exact hostStep_effect hn h
  · rcases engineTurn_next_cases h with ⟨hm, rfl⟩ | ⟨hm, hc, rfl⟩ | ⟨hm, i, hi, h⟩
    · exact .engineIdle hn hm
    · exact .completion hn hm hc
    · rcases exec_next_cases h with ⟨hm2, _⟩ | ⟨_, hc, rfl⟩ | ⟨_, y, x, c, hc, hs, ha, rfl⟩
      · simp_all
      · exact .completion hn hm hc
      · exact .pixel i y x c hn hm hi hc hs ha h
  · exact .reset pm snap hn

end Sys2Proof.Machine
end

