-- ==== Sys2Proof/Laws/Scan.lean ====
section
/-! SUPPORT. The walk of the cursor and the scan as a list: from a cursor on, the positions still to be visited; a run of
engine steps processes them in that order. -/

namespace Sys2Proof.Machine

/-- One row of a scan, from column `x` up to `hx`. -/
def scanRow (hx y x : Nat) : List (Nat × Nat) := (List.range' x (hx - x)).map (fun x' => (y, x'))

/-- The rows of a scan from row `y` up to `hy`, each from column `lo`. -/
def scanRows (lo hx hy y : Nat) : List (Nat × Nat) := (List.range' y (hy - y)).flatMap (fun y' => scanRow hx y' lo)

/-- The bounds of a command's scan: first column and row, and one past the last column and row. -/
def scanBounds (i : Instr) (w h : Nat) : Nat × Nat × Nat := if scansInterior i then (1, w - 1, h - 1) else (0, w, h)

/-- The positions a cursor has still to visit. -/
def scanRest (i : Instr) (w h : Nat) : Cursor → List (Nat × Nat)
  | .fin => []
  | .pix y x => scanRow (scanBounds i w h).2.1 y x ++ scanRows (scanBounds i w h).1 (scanBounds i w h).2.1 (scanBounds i w h).2.2 (y + 1)

theorem scanRow_cons {hx y x : Nat} (h : x < hx) : scanRow hx y x = (y, x) :: scanRow hx y (x + 1) := by
  unfold scanRow
  have : hx - x = (hx - (x + 1)) + 1 := by omega
  rw [this, List.range'_succ]
  simp

theorem scanRow_nil {hx y x : Nat} (h : hx ≤ x) : scanRow hx y x = [] := by
  unfold scanRow
  have : hx - x = 0 := by omega
  simp [this]

theorem scanRows_cons {lo hx hy y : Nat} (h : y < hy) : scanRows lo hx hy y = scanRow hx y lo ++ scanRows lo hx hy (y + 1) := by
  unfold scanRows
  have : hy - y = (hy - (y + 1)) + 1 := by omega
  rw [this, List.range'_succ]
  simp

theorem scanRows_nil {lo hx hy y : Nat} (h : hy ≤ y) : scanRows lo hx hy y = [] := by
  unfold scanRows
  have : hy - y = 0 := by omega
  simp [this]

/-- The scan over its bounds. -/
theorem scanOrder_eq (i : Instr) (w h : Nat) :
    scanOrder i w h = scanRows (scanBounds i w h).1 (scanBounds i w h).2.1 (scanBounds i w h).2.2 (scanBounds i w h).1 := by
  unfold scanOrder scanBounds scanRows scanRow
  split
  · simp [Nat.sub_sub]
  · simp [List.range_eq_range']

/-- The cursor of a successful issue has the whole scan before it. -/
theorem scanRest_start {i : Instr} {w h : Nat} (hw : 0 < w) (hh : 0 < h) :
    scanRest i w h (startCursor i w h) = scanOrder i w h := by
  rw [scanOrder_eq]
  unfold startCursor scanBounds
  by_cases hi : scansInterior i = true
  · simp only [hi, if_true]
    split
    · next h3 => rw [scanRows_cons (by omega)]; simp [scanRest, scanBounds, hi]
    · next h3 =>
      simp only [scanRest]
      by_cases hh3 : h < 3
      · rw [scanRows_nil (by omega)]
      · have hw3 : w - 1 ≤ 1 := by omega
        symm
        unfold scanRows
        rw [List.flatMap_eq_nil_iff]
        intro y _
        exact scanRow_nil hw3
  · simp only [hi]
    rw [if_neg (by simp)]
    simp only [Bool.false_eq_true, if_false]
    rw [scanRows_cons hh]
    simp [scanRest, scanBounds, hi]

theorem scanRest_interior {i : Instr} (hi : scansInterior i = true) (w h y x : Nat) :
    scanRest i w h (.pix y x) = scanRow (w - 1) y x ++ scanRows 1 (w - 1) (h - 1) (y + 1) := by
  simp [scanRest, scanBounds, hi]

theorem scanRest_whole {i : Instr} (hi : scansInterior i = false) (w h y x : Nat) :
    scanRest i w h (.pix y x) = scanRow w y x ++ scanRows 0 w h (y + 1) := by
  simp [scanRest, scanBounds, hi]

/-- A position of the scan is the first of those still to be visited, and the next cursor has the others before it. -/
theorem scanRest_next {i : Instr} {w h y x : Nat} (hs : inScan i w h y x = true) :
    scanRest i w h (.pix y x) = (y, x) :: scanRest i w h (nextCursor i w h y x) := by
  unfold inScan at hs
  unfold nextCursor
  by_cases hi : scansInterior i = true
  · simp only [hi, if_true, decide_eq_true_eq] at hs ⊢
    rw [scanRest_interior hi, scanRow_cons (by omega), List.cons_append]
    congr 1
    by_cases h1 : x + 1 < w - 1
    · rw [if_pos h1, scanRest_interior hi]
    · rw [if_neg h1, scanRow_nil (by omega), List.nil_append]
      by_cases h2 : y + 1 < h - 1
      · rw [if_pos h2, scanRest_interior hi, scanRows_cons h2]
      · rw [if_neg h2, scanRows_nil (by omega)]; rfl
  · simp only [Bool.not_eq_true] at hi
    simp only [hi, Bool.false_eq_true, if_false, decide_eq_true_eq] at hs ⊢
    rw [scanRest_whole hi, scanRow_cons (by omega), List.cons_append]
    congr 1
    by_cases h1 : x + 1 < w
    · rw [if_pos h1, scanRest_whole hi]
    · rw [if_neg h1, scanRow_nil (by omega), List.nil_append]
      by_cases h2 : y + 1 < h
      · rw [if_pos h2, scanRest_whole hi, scanRows_cons h2]
      · rw [if_neg h2, scanRows_nil (by omega)]; rfl

/-- The cursor of a successful issue is at the end or in the scan. -/
theorem startCursor_ok (i : Instr) {w h : Nat} (hw : 0 < w) (hh : 0 < h) : cursorOk i w h (startCursor i w h) := by
  unfold startCursor
  split
  · next hi =>
    split
    · simp [cursorOk, inScan, hi]; omega
    · trivial
  · next hi => simp [cursorOk, inScan, hi, hw, hh]

/-- The next cursor is at the end or in the scan. -/
theorem nextCursor_ok {i : Instr} {w h y x : Nat} (hs : inScan i w h y x = true) :
    cursorOk i w h (nextCursor i w h y x) := by
  unfold nextCursor
  unfold inScan at hs
  split
  · next hi =>
    simp only [hi, if_true, decide_eq_true_eq] at hs
    split
    · simp [cursorOk, inScan, hi]; omega
    · split
      · simp [cursorOk, inScan, hi]; omega
      · trivial
  · next hi =>
    simp [hi] at hs
    split
    · simp [cursorOk, inScan, hi]; omega
    · split
      · simp [cursorOk, inScan, hi]; omega
      · trivial

/-- Which positions the scan holds. -/
theorem mem_scanOrder {i : Instr} {w h y x : Nat} : (y, x) ∈ scanOrder i w h ↔ inScan i w h y x = true := by
  unfold scanOrder inScan
  split
  · simp [List.mem_range'_1]; omega
  · simp; omega

/-- The length of the scan: one engine step each, and one for the completion (R111). -/
theorem scanOrder_length (i : Instr) (w h : Nat) : (scanOrder i w h).length + 1 = stepCount i w h := by
  unfold scanOrder stepCount
  split <;> simp [List.length_flatMap, Nat.mul_comm]

theorem execTimes_one_next {i : Instr} {s t : State} {n : Nat} (h : exec i s = .next t) :
    execTimes i (n + 1) s = execTimes i n t := by
  simp [execTimes, h]

/-- A run of engine steps with `ps` still before the cursor processes them in order and ends with the completion. -/
theorem execTimes_scan (i : Instr) (ps : List (Nat × Nat)) :
    ∀ s : State, s.mode = .busy → cursorOk i s.w s.h s.cur → imageBytes s.w s.h ≤ s.params.pixmemBytes →
      scanRest i s.w s.h s.cur = ps →
      execTimes i (ps.length + 1) s = .next (complete (setCur .fin
        (setPm (applyAt s.params.tie i s.w s.h s.snap s.pm ps) s))) := by
  induction ps with
  | nil =>
    intro s hm hc hf hr
    cases hcur : s.cur with
    | fin =>
      rw [List.length_nil, execTimes_one_next (exec_fin hm hcur)]
      have : s = setCur .fin (setPm s.pm s) := by
        cases s; simp_all [setCur, setPm]
      conv_lhs => rw [this]
      rfl
    | pix y x =>
      rw [hcur] at hc hr
      rw [scanRest_next hc] at hr
      cases hr
  | cons p ps ih =>
    intro s hm hc hf hr
    cases hcur : s.cur with
    | fin => rw [hcur] at hr; cases hr
    | pix y x =>
      rw [hcur] at hc hr
      rw [scanRest_next hc] at hr
      obtain ⟨hp, hps⟩ := List.cons.inj hr
      rw [List.length_cons, execTimes_one_next (exec_pix hm hcur hc hf)]
      subst hp
      exact ih (setCur (nextCursor i s.w s.h y x)
        (setPm (putRgb s.pm s.w x y (pixelColour s.params.tie i s.w s.h s.snap s.pm y x)) s)) hm (nextCursor_ok hc) hf hps

/-- A proper prefix of that run leaves the engine BUSY. -/
theorem execTimes_scan_busy (i : Instr) (ps : List (Nat × Nat)) :
    ∀ (s : State) (n : Nat), s.mode = .busy → cursorOk i s.w s.h s.cur → imageBytes s.w s.h ≤ s.params.pixmemBytes →
      scanRest i s.w s.h s.cur = ps → n ≤ ps.length → ∃ t, execTimes i n s = .next t ∧ t.mode = .busy := by
  induction ps with
  | nil =>
    intro s n hm hc hf hr hn
    have : n = 0 := by simpa using hn
    subst this
    exact ⟨s, rfl, hm⟩
  | cons p ps ih =>
    intro s n hm hc hf hr hn
    cases n with
    | zero => exact ⟨s, rfl, hm⟩
    | succ n =>
      cases hcur : s.cur with
      | fin => rw [hcur] at hr; cases hr
      | pix y x =>
        rw [hcur] at hc hr
        rw [scanRest_next hc] at hr
        obtain ⟨hp, hps⟩ := List.cons.inj hr
        rw [execTimes_one_next (exec_pix hm hcur hc hf)]
        exact ih _ n hm (nextCursor_ok hc) hf (by simpa using hps) (by simpa using hn)

end Sys2Proof.Machine
end

