-- ==== Sys2Proof/Laws/Apply.lean ====
section
/-! SUPPORT. What processing a list of positions leaves in an image: the canonical form, the bytes of other pixels, and
the colour of each processed pixel. -/

namespace Sys2Proof.Machine

theorem applyAt_wf {t : Tie} {i : Instr} {w h : Nat} {src m : Memory} (hm : m.wf) (ps : List (Nat × Nat)) :
    (applyAt t i w h src m ps).wf := by
  induction ps generalizing m with
  | nil => exact hm
  | cons p ps ih => exact ih (putRgb_wf hm _ _ _ _)

theorem applyAt_append (t : Tie) (i : Instr) (w h : Nat) (src m : Memory) (ps qs : List (Nat × Nat)) :
    applyAt t i w h src m (ps ++ qs) = applyAt t i w h src (applyAt t i w h src m ps) qs := by
  induction ps generalizing m with
  | nil => rfl
  | cons p ps ih => exact ih _

/-- A byte that is no colour byte of a processed pixel stays. -/
theorem applyAt_read_other (t : Tie) (i : Instr) (w h : Nat) (src m : Memory) (ps : List (Nat × Nat)) {a : Nat}
    (ha : ∀ p ∈ ps, a < pixelAddr w p.2 p.1 0 ∨ pixelAddr w p.2 p.1 2 < a) :
    (applyAt t i w h src m ps).read a = m.read a := by
  induction ps generalizing m with
  | nil => rfl
  | cons p ps ih =>
    unfold applyAt
    rw [ih _ (fun q hq => ha q (by simp [hq])), read_putRgb_other _ _ (ha p (by simp))]

/-- The bytes of a pixel of the image lie outside the colour bytes of every other. -/
theorem pixelAddr_outside {w x y ch x' y' : Nat} (hx : x < w) (hx' : x' < w) (hc : ch < 4) (h : (y, x) ≠ (y', x')) :
    pixelAddr w x y ch < pixelAddr w x' y' 0 ∨ pixelAddr w x' y' 2 < pixelAddr w x y ch := by
  by_contra hn
  have h2 : pixelAddr w x y ch = pixelAddr w x' y' 0 ∨ pixelAddr w x y ch = pixelAddr w x' y' 1 ∨
      pixelAddr w x y ch = pixelAddr w x' y' 2 := by
    simp only [pixelAddr] at hn ⊢; omega
  rcases h2 with h2 | h2 | h2 <;>
  · have := pixelAddr_inj hx hx' hc (by omega) h2
    exact h (by rw [this.1, this.2.1])

/-- The alpha byte of any pixel lies outside the colour bytes of every pixel. -/
theorem alpha_outside (w x y x' y' : Nat) :
    pixelAddr w x y 3 < pixelAddr w x' y' 0 ∨ pixelAddr w x' y' 2 < pixelAddr w x y 3 := by
  simp only [pixelAddr]; omega

/-- A pixel that is not processed keeps its bytes. -/
theorem applyAt_read_unvisited (t : Tie) (i : Instr) {w : Nat} (h : Nat) (src m : Memory) {ps : List (Nat × Nat)}
    {x y ch : Nat} (hx : x < w) (hc : ch < 4) (hps : ∀ p ∈ ps, p.2 < w) (hn : (y, x) ∉ ps) :
    (applyAt t i w h src m ps).read (pixelAddr w x y ch) = m.read (pixelAddr w x y ch) :=
  applyAt_read_other t i w h src m ps (fun p hp =>
    pixelAddr_outside hx (hps p hp) hc (fun he => hn (by rw [he]; exact hp)))

theorem rgbAt_putRgb {m : Memory} (hm : m.wf) (w x y : Nat) (c : Rgb) : rgbAt (putRgb m w x y c) w x y = c := by
  unfold rgbAt
  rw [read_putRgb hm, read_putRgb hm, read_putRgb hm]
  simp [pixelAddr]

/-- The colour of a processed pixel is the one computed when it was processed. -/
theorem rgbAt_applyAt {t : Tie} {i : Instr} {w h : Nat} {src m : Memory} (hm : m.wf) {l₁ l₂ : List (Nat × Nat)} {y x : Nat}
    (hx : x < w) (h2 : ∀ p ∈ l₂, p.2 < w) (hn : (y, x) ∉ l₂) :
    rgbAt (applyAt t i w h src m (l₁ ++ (y, x) :: l₂)) w x y =
      pixelColour t i w h src (applyAt t i w h src m l₁) y x := by
  rw [applyAt_append]
  have h1 := applyAt_wf (t := t) (i := i) (w := w) (h := h) (src := src) hm l₁
  generalize applyAt t i w h src m l₁ = m1 at *
  simp only [applyAt]
  have hr := rgbAt_putRgb h1 w x y (pixelColour t i w h src m1 y x)
  unfold rgbAt at hr ⊢
  rw [applyAt_read_unvisited t i h src _ hx (by omega) h2 hn, applyAt_read_unvisited t i h src _ hx (by omega) h2 hn,
    applyAt_read_unvisited t i h src _ hx (by omega) h2 hn]
  exact hr

theorem scanOrder_column {i : Instr} {w h : Nat} {p : Nat × Nat} (hp : p ∈ scanOrder i w h) : p.2 < w := by
  obtain ⟨y, x⟩ := p
  exact (inScan_image (mem_scanOrder.1 hp)).1

theorem scanRow_sorted (hx y x : Nat) : (scanRow hx y x).Pairwise (fun p q => p.1 = q.1 ∧ p.2 < q.2) := by
  unfold scanRow
  rw [List.pairwise_map]
  exact (List.pairwise_lt_range' (s := x) (n := hx - x) (step := 1)).imp (fun h => ⟨rfl, h⟩)

/-- The scan is in row-major order, `x` fastest (R37). -/
theorem scanOrder_sorted (i : Instr) (w h : Nat) :
    (scanOrder i w h).Pairwise (fun p q => p.1 < q.1 ∨ (p.1 = q.1 ∧ p.2 < q.2)) := by
  rw [scanOrder_eq]
  generalize (scanBounds i w h).1 = lo
  generalize (scanBounds i w h).2.1 = hx
  generalize (scanBounds i w h).2.2 = hy
  unfold scanRows
  rw [List.pairwise_flatMap]
  refine ⟨fun y _ => (scanRow_sorted hx y lo).imp (fun h => .inr h), ?_⟩
  refine (List.pairwise_lt_range' (s := lo) (n := hy - lo) (step := 1)).imp ?_
  intro a b hab p hp q hq
  simp only [scanRow, List.mem_map] at hp hq
  obtain ⟨_, _, rfl⟩ := hp
  obtain ⟨_, _, rfl⟩ := hq
  exact .inl hab

/-- A position of the scan splits it: those before come before it in row-major order, those after come after it. -/
theorem scanOrder_split {i : Instr} {w h y x : Nat} (hs : inScan i w h y x = true) :
    ∃ l₁ l₂, scanOrder i w h = l₁ ++ (y, x) :: l₂ ∧
      (∀ p ∈ l₁, p.1 < y ∨ (p.1 = y ∧ p.2 < x)) ∧ (∀ p ∈ l₂, y < p.1 ∨ (y = p.1 ∧ x < p.2)) := by
  obtain ⟨l₁, l₂, he⟩ := List.append_of_mem (mem_scanOrder.2 hs)
  have hp := scanOrder_sorted i w h
  rw [he, List.pairwise_append, List.pairwise_cons] at hp
  exact ⟨l₁, l₂, he, fun p hp1 => hp.2.2 p hp1 (y, x) (by simp), hp.2.1.1⟩

end Sys2Proof.Machine
end

