-- ==== Sys2Proof/Laws/PerInstr.lean ====
section
/-! SUPPORT. The family CommandWord: every command is well formed, its word has the format of R90, and the decoder reads
it back from the whole word and from the field KIND. -/

namespace Sys2Proof.Laws.CommandWord

/-- What the family says of one command. -/
def Statement (i : Instr) : Prop :=
  i.WellFormed ∧ zeroField (encode i) = 0 ∧ kindField (encode i) = kindCode i ∧ decode (encode i) = .ok i ∧
    decodeKind (encode i) = .ok i

theorem of_fields {i : Instr} (hw : i.WellFormed) (hz : zeroField (encode i) = 0) (hk : kindField (encode i) = kindCode i) :
    Statement i := ⟨hw, hz, hk, decode_encode i, decodeKind_encode i⟩

theorem invert : Statement .invert := of_fields trivial (by decide) (by decide)
theorem blackAndWhite : Statement .blackAndWhite := of_fields trivial (by decide) (by decide)
theorem sepia : Statement .sepia := of_fields trivial (by decide) (by decide)
theorem brightness : Statement .brightness := of_fields trivial (by decide) (by decide)
theorem contrast : Statement .contrast := of_fields trivial (by decide) (by decide)
theorem threshold : Statement .threshold := of_fields trivial (by decide) (by decide)
theorem hueRotate : Statement .hueRotate := of_fields trivial (by decide) (by decide)
theorem saturate : Statement .saturate := of_fields trivial (by decide) (by decide)
theorem colorize : Statement .colorize := of_fields trivial (by decide) (by decide)
theorem sharpen : Statement .sharpen := of_fields trivial (by decide) (by decide)
theorem blur : Statement .blur := of_fields trivial (by decide) (by decide)

end Sys2Proof.Laws.CommandWord
end

