-- ==== Sys2Proof/Laws/Platform.lean ====
section
/-! SUPPORT. The engines of a platform: how many there are, what replacing one leaves, one step of a platform, said once,
and what mapping an engine elsewhere leaves. -/

namespace Sys2Proof.Machine

variable (p : Platform)

/-- `N_ENGINES >= 1` (R7). -/
theorem Platform.one_le_nEngines : 1 ≤ p.nEngines := by simp [nEngines, engines]

@[simp] theorem Platform.nEngines_resetWith (q : Params) (qs : List Params) :
    (Platform.resetWith q qs).nEngines = qs.length + 1 := by
  simp [nEngines, engines, resetWith]

@[simp] theorem Platform.engines_setEngine (e : Nat) (t : State) : (p.setEngine e t).engines = p.engines.set e t := by
  cases e <;> rfl

@[simp] theorem Platform.nEngines_setEngine (e : Nat) (t : State) : (p.setEngine e t).nEngines = p.nEngines := by
  simp [nEngines]

variable {p}

/-- What a step of engine `e` is when it answers a next platform. -/
theorem platformStep_next_cases {e : Nat} {q : Platform} (h : platformStep e p = .next q) :
    (p.engines[e]? = none ∧ q = p) ∨
    (∃ s t, p.engines[e]? = some s ∧ step s = .next t ∧ q = p.setEngine e t) := by
  unfold platformStep at h
  split at h
  · next hn => exact .inl ⟨hn, by simpa using h.symm⟩
  · next s hs =>
    split at h
    · next t ht => exact .inr ⟨s, t, hs, ht, by simpa using h.symm⟩
    · cases h
    · cases h

variable (s : State) (c b : Nat)

@[simp] theorem mappedAt_tie : (s.mappedAt c b).params.tie = s.params.tie := rfl
@[simp] theorem mappedAt_pixmemBytes : (s.mappedAt c b).params.pixmemBytes = s.params.pixmemBytes := rfl
@[simp] theorem mappedAt_pm : (s.mappedAt c b).pm = s.pm := rfl
@[simp] theorem mappedAt_snap : (s.mappedAt c b).snap = s.snap := rfl
@[simp] theorem mappedAt_ie : (s.mappedAt c b).ie = s.ie := rfl
@[simp] theorem mappedAt_done : (s.mappedAt c b).done = s.done := rfl
@[simp] theorem mappedAt_err : (s.mappedAt c b).err = s.err := rfl
@[simp] theorem mappedAt_proto : (s.mappedAt c b).proto = s.proto := rfl
@[simp] theorem mappedAt_errCode : (s.mappedAt c b).errCode = s.errCode := rfl
@[simp] theorem mappedAt_width : (s.mappedAt c b).width = s.width := rfl
@[simp] theorem mappedAt_height : (s.mappedAt c b).height = s.height := rfl
@[simp] theorem mappedAt_len : (s.mappedAt c b).len = s.len := rfl
@[simp] theorem mappedAt_cmd : (s.mappedAt c b).cmd = s.cmd := rfl
@[simp] theorem mappedAt_mode : (s.mappedAt c b).mode = s.mode := rfl
@[simp] theorem mappedAt_cur : (s.mappedAt c b).cur = s.cur := rfl
@[simp] theorem mappedAt_script : (s.mappedAt c b).script = s.script := rfl
@[simp] theorem mappedAt_position : (s.mappedAt c b).position = s.position := rfl
@[simp] theorem mappedAt_reads : (s.mappedAt c b).reads = s.reads := rfl
@[simp] theorem mappedAt_rejected : (s.mappedAt c b).rejected = s.rejected := rfl
@[simp] theorem mappedAt_turns : (s.mappedAt c b).turns = s.turns := rfl
@[simp] theorem mappedAt_w : (s.mappedAt c b).w = s.w := rfl
@[simp] theorem mappedAt_h : (s.mappedAt c b).h = s.h := rfl
@[simp] theorem mappedAt_busy : (s.mappedAt c b).busy = s.busy := rfl
@[simp] theorem mappedAt_csrValue (n : Nat) : csrValue n (s.mappedAt c b) = csrValue n s := rfl
@[simp] theorem mappedAt_nextTurn : nextTurn (s.mappedAt c b) = nextTurn s := rfl

end Sys2Proof.Machine
end

