-- ==== Sys2Proof/Tests/Slice0.lean ====
section
/-! SUPPORT. Small tests. The expected values are the spec's own: the encodings of spec/30_encoding.md R92 and the
vectors S1 to S9 and V1 to V16 of spec/95_test_vectors.md. After them, for every statement with hypotheses, a state and
operands that meet them. -/

namespace Sys2Proof.Tests

open Sys2Proof.Machine

/-! ### Well-formedness and decoding -/

theorem test_params_ok : Params.WellFormed ⟨.up, 64, 0, 0⟩ := by decide
theorem test_params_not_multiple_of_4 : ¬ Params.WellFormed ⟨.even, 66, 0, 0⟩ := by decide
theorem test_params_too_small : ¬ Params.WellFormed ⟨.even, 0, 0, 0⟩ := by decide
theorem test_params_too_large : ¬ Params.WellFormed ⟨.even, 4294967296, 0, 0⟩ := by decide
theorem test_kernel_even_size : kernelValid [[1, 1], [1, 1]] = false := by decide
theorem test_kernel_not_square : kernelValid [[1, 1], [1, 1], [1, 1]] = false := by decide
theorem test_kernel_empty : kernelValid ([] : List (List Int)) = false := by decide
theorem test_word_upper_bits : decode 0b00000000000000000000000100000000 = .error .upperBitsSet := by decide
theorem test_word_kind_11 : decode 0b00000000000000000000000000001011 = .error .unknownKind := by decide

theorem test_decode_invert : decode 0b00000000000000000000000000000000 = .ok .invert := by decide
theorem test_decode_blackAndWhite : decode 0b00000000000000000000000000000001 = .ok .blackAndWhite := by decide
theorem test_decode_sepia : decode 0b00000000000000000000000000000010 = .ok .sepia := by decide
theorem test_decode_brightness : decode 0b00000000000000000000000000000011 = .ok .brightness := by decide
theorem test_decode_contrast : decode 0b00000000000000000000000000000100 = .ok .contrast := by decide
theorem test_decode_threshold : decode 0b00000000000000000000000000000101 = .ok .threshold := by decide
theorem test_decode_hueRotate : decode 0b00000000000000000000000000000110 = .ok .hueRotate := by decide
theorem test_decode_saturate : decode 0b00000000000000000000000000000111 = .ok .saturate := by decide
theorem test_decode_colorize : decode 0b00000000000000000000000000001000 = .ok .colorize := by decide
theorem test_decode_sharpen : decode 0b00000000000000000000000000001001 = .ok .sharpen := by decide
theorem test_decode_blur : decode 0b00000000000000000000000000001010 = .ok .blur := by decide
theorem test_table_word_blur : decodeTableWord 32 10 = some .blur := by decide

/-! ### The clamping arithmetic unit (V1) -/

theorem test_round_half_negative :
    (roundTie .even (-1) 2, roundTie .up (-1) 2, roundTie .away (-1) 2) = (0, 0, -1) ∧
    (roundTie .even (-5) 2, roundTie .up (-5) 2, roundTie .away (-5) 2) = (-2, -2, -3) := by decide
theorem test_round_half_positive :
    (roundTie .even 509 2, roundTie .up 509 2, roundTie .away 511 2) = (254, 255, 256) := by decide
theorem test_sat8_clamps : sat8 .even (-128) 5 = 0 ∧ sat8 .even 1402 5 = 255 ∧ sat8 .up 305 2 = 153 := by decide
theorem test_isqrt : isqrt 195075 = 441 ∧ isqrt 3 = 1 ∧ isqrt 0 = 0 := by decide

/-! ### Point filters (V2, V4), one pixel -/

theorem test_invert : filterInvert .even ⟨149, 150, 150⟩ = ⟨106, 105, 105⟩ := by decide
theorem test_blackAndWhite : filterBlackAndWhite .even ⟨149, 150, 150⟩ = ⟨150, 150, 150⟩ := by decide
theorem test_sepia_even : filterSepia .even ⟨100, 150, 200⟩ = ⟨171, 162, 132⟩ := by decide
theorem test_sepia_up : filterSepia .up ⟨0, 0, 50⟩ = ⟨9, 8, 7⟩ := by decide
theorem test_brightness : filterBrightness .even ⟨3, 0, 7⟩ = ⟨4, 0, 8⟩ := by decide
theorem test_contrast : filterContrast .even ⟨212, 213, 127⟩ = ⟨229, 230, 127⟩ := by decide
theorem test_threshold_below : filterThreshold ⟨150, 150, 149⟩ = ⟨100, 100, 100⟩ := by decide
theorem test_threshold_at : filterThreshold ⟨255, 195, 0⟩ = ⟨200, 200, 200⟩ := by decide
theorem test_hueRotate_red_crosses_zero : filterHueRotate .even ⟨148, 255, 0⟩ = ⟨1, 255, 0⟩ := by decide
theorem test_hueRotate_tie : filterHueRotate .even ⟨5, 0, 0⟩ = ⟨4, 2, 0⟩ ∧ filterHueRotate .away ⟨5, 0, 0⟩ = ⟨4, 3, 0⟩ := by
  decide
theorem test_saturate : filterSaturate .even ⟨212, 213, 127⟩ = ⟨218, 219, 116⟩ := by decide
theorem test_colorize : filterColorize .even ⟨149, 150, 150⟩ = ⟨114, 100, 135⟩ ∧
    filterColorize .up ⟨149, 150, 150⟩ = ⟨115, 100, 135⟩ := by decide

/-! ### One step on a small state -/

/-- PM from pixel words (R62). -/
def pixels (ws : List Word) : Memory := ws.zipIdx.foldl (fun m p => m.writeWord (4 * p.2) p.1) []

/-- An IDLE engine of 64 bytes with a `w` by `h` image. -/
def idleWith (w h : Nat) (pm : Memory) : State :=
  { State.resetWith ⟨.even, 64, 0, 0⟩ pm [] with
    width := BitVec.ofNat 32 w, height := BitVec.ofNat 32 h, len := BitVec.ofNat 32 (4 * w * h) }

/-- The same engine BUSY with a command, its cursor given; SNAP holds the same bytes. -/
def busyWith (i : Instr) (w h : Nat) (pm : Memory) (c : Cursor) : State :=
  { idleWith w h pm with mode := .busy, cmd := encode i, snap := pm, cur := c }

/-- The outcome is a next state with the property. -/
def nextIs (o : Host.Outcome State Fault Refusal) (p : State → Bool) : Bool :=
  match o with
  | .next s => p s
  | .fault _ => false
  | .refused _ => false

/-- The 3 by 3 image of V8. -/
def imageV8 : Memory := pixels [0x8014F50A, 0x8128EB14, 0x823CE11E, 0x8350D728, 0x8464CD32, 0x8578C33C, 0x868CB946,
  0x87A0AF50, 0x88B4A55A]

/-- The first two rows and the interior of the image of V11 are enough for its first step. -/
def imageV11 : Memory := pixels [0xC800FF00, 0xC878D728, 0xC8F0AF50, 0xC8688778, 0xC830EF10, 0xC85837C8, 0xC82C9B64,
  0xC8B4C33C, 0xC860DF20, 0xC80EA55A, 0xC8EE05FA, 0xC83CEB14, 0xC890CF30, 0xC818F708, 0xC8D8B748, 0xC8FD00FF]

/-- P1, engine step 1: bytes 0..2 become `00 FF FF`, alpha stays. -/
theorem test_invert_step : nextIs (exec .invert (busyWith .invert 2 2 (pixels [0xFF0000FF, 0xFF00FF00]) (.pix 0 0)))
    (fun t => t.pm.readWord 0 == 0xFFFFFF00 && t.pm.readWord 4 == 0xFF00FF00 && t.cur == .pix 0 1) = true := by decide

/-- V8: pixel (2,2) reads `4*90 - 60 - 80 = 220` and so on from the snapshot. -/
theorem test_sharpen_step_corner : nextIs (exec .sharpen (busyWith .sharpen 3 3 imageV8 (.pix 2 2)))
    (fun t => t.pm.readWord 32 == 0x88FFFFDC && t.cur == .fin) = true := by decide

/-- V9: pixel (0,1) of V8 does not read the pixel before it in memory. -/
theorem test_sharpen_step_no_wrap : nextIs (exec .sharpen (busyWith .sharpen 3 3 imageV8 (.pix 1 0)))
    (fun t => t.pm.readWord 12 == 0x833CE11E) = true := by decide

/-- V11: the first interior pixel, with its blue tie 56.5 to 56. -/
theorem test_blur_step : nextIs (exec .blur (busyWith .blur 4 4 imageV11 (.pix 1 1)))
    (fun t => t.pm.readWord 20 == 0xC838C23E && t.cur == .pix 1 2) = true := by decide

/-- The new platform has an engine for each set of parameters. -/
theorem test_platform_engines : (Platform.resetWith ⟨.even, 64, 0, 16⟩ [⟨.up, 4, 32, 48⟩]).nEngines = 2 := by decide

/-- P4: `colorize` of `(1,1,0,7)`. -/
theorem test_colorize_step : nextIs (exec .colorize (busyWith .colorize 1 1 (pixels [0x07000101]) (.pix 0 0)))
    (fun t => t.pm.readWord 0 == 0x073C1A28 && t.cur == .fin) = true := by decide

/-- V13: the status word right after a write of `CMD`, `PIXMEM_BYTES = 64`. -/
def statusAfter (w h len : Nat) (v : Word) : Word :=
  match writeCmd v { idleWith w h [] with len := BitVec.ofNat 32 len } with
  | .next t => statusWord t
  | .fault _ => 0xFFFFFFFF
  | .refused _ => 0xFFFFFFFF

theorem test_issue_accepted : statusAfter 2 2 16 0 = 0x00000001 ∧ statusAfter 4 4 64 0xA = 0x00000001 ∧
    statusAfter 2 2 16 9 = 0x00000001 := by decide
theorem test_issue_errors : statusAfter 0 0 0 0 = 0x00000404 ∧ statusAfter 2 2 12 8 = 0x00000204 ∧
    statusAfter 2 2 16 0xB = 0x00000304 ∧ statusAfter 2 2 16 0x100 = 0x00000304 ∧ statusAfter 5 4 80 0 = 0x00000504 := by
  decide
theorem test_issue_priority : statusAfter 0 2 7 0xB = 0x00000304 ∧ statusAfter 0 2 7 0 = 0x00000404 ∧
    statusAfter 5 4 64 0 = 0x00000204 ∧ statusAfter 65536 16384 0 0 = 0x00000204 := by decide

/-- V14: while BUSY, `pixr 0 -> 0` and `PROTO`; `csrw CMD, 1` is dropped. -/
theorem test_busy_pixread : nextIs (step { busyWith .invert 2 2 [] (.pix 0 0) with script := [.pixRead 0], turns := [.host] })
    (fun t => t.reads == [0] && statusWord t == 0x00000009) = true := by decide
theorem test_busy_cmd_dropped : nextIs (step { busyWith .invert 2 2 [] (.pix 0 0) with
      script := [.csrWrite 8 1], turns := [.host] })
    (fun t => t.cmd == 0 && statusWord t == 0x00000009) = true := by decide

/-- V15: `irq`. -/
theorem test_irq : irq { idleWith 1 1 [] with ie := true, done := true } = true ∧
    irq { idleWith 1 1 [] with ie := true, proto := true } = false ∧ irq { idleWith 1 1 [] with done := true } = false := by
  decide

/-- V16: the state after reset, `TIE = even`, `PIXMEM_BYTES = 64`. -/
theorem test_reset_csrs : (List.range 10).map (fun n => csrValue n (State.resetWith ⟨.even, 64, 0, 0⟩ [] [])) =
    [0x50434301, 0x0000830B, 0x00000010, 0, 0, 0, 0, 0, 0, 0] := by decide

/-- V13, first row, through withFetchWord: the first command after reset is issued, with the reset geometry. -/
theorem test_first_command_after_reset : nextIs (step (State.reset.withFetchWord 32 0))
    (fun t => statusWord t == 0x00000404 && t.cmd == 0 && t.script == []) = true := by decide

/-- S6: a 1 by 1 image under the 5 by 5 kernel of ones with centre 3. -/
theorem test_convolve_one_pixel : (convolve .even 1 1 (Memory.ofBytesAt 0 [10, 100, 200, 7])
    [[1, 1, 1, 1, 1], [1, 1, 1, 1, 1], [1, 1, 3, 1, 1], [1, 1, 1, 1, 1], [1, 1, 1, 1, 1]]) = .ok [30, 255, 255, 7] := by
  decide +kernel
theorem test_convolve_rejects : convolve .even 1 1 [] [[1, 1], [1, 1]] = .error .invalidKernel := by decide

/-! ### Witnesses: the hypotheses of each statement can be met together -/

/-- The host has the next step with a given statement, the engine IDLE or BUSY. -/
def hostNext (m : Mode) (h : HostStmt) : State := { idleWith 2 2 [] with mode := m, script := [h], turns := [.host] }

/-- A busy engine that meets the invariant. -/
theorem witness_inv_busy : (busyWith .invert 2 2 (pixels [0xFF0000FF]) (.pix 1 1)).Inv :=
  ⟨by decide, ⟨by decide, by decide, by decide, by decide⟩, ⟨by decide, by decide, by decide, by decide, by decide⟩,
    fun _ => ⟨.invert, by decide, by decide, by decide, by decide, by decide, by rfl⟩⟩

/-- An idle engine that meets the invariant, about to be given a command. -/
theorem witness_inv_idle : { idleWith 2 2 [] with script := [.csrWrite 8 9] : State }.Inv :=
  ⟨by decide, ⟨by decide, by decide, by decide, by decide⟩, ⟨by decide, by decide, by decide, by decide, by decide⟩,
    fun h => absurd h (by decide)⟩

theorem witness_DecodeAcceptsExactlyCommandWords :
    (0x00000100 : Word).toNat / 256 ≠ 0 ∧ (0x0000000B : Word).toNat / 256 = 0 ∧ 11 ≤ (0x0000000B : Word).toNat % 256 ∧
      11 ≤ (0x000000FF : Word).toNat % 256 := by decide

theorem witness_ResetLeavesResetValues :
    nextTurn { busyWith .blur 4 4 imageV11 (.pix 1 1) with turns := [.reset [(3, 7)] []] } = .reset [(3, 7)] [] ∧
      Memory.wf [(3, 7)] ∧ Memory.wf [] ∧ 3 < (busyWith .blur 4 4 imageV11 (.pix 1 1)).params.pixmemBytes := by decide

theorem witness_ResetKeepsHostSide :
    nextTurn { hostNext .busy .wait with turns := [.reset [] []], rejected := [⟨.capacity, 2⟩] } = .reset [] [] := by decide

theorem witness_EveryStepKeepsInvariant :
    (busyWith .invert 2 2 (pixels [0xFF0000FF]) (.pix 1 1)).Inv ∧
      ∃ t, step (busyWith .invert 2 2 (pixels [0xFF0000FF]) (.pix 1 1)) = .next t :=
  ⟨witness_inv_busy, _, rfl⟩

theorem witness_EveryStepKeepsInvariant_issue : ∃ t, { idleWith 2 2 [] with script := [.csrWrite 8 9] : State }.Inv ∧
    step { idleWith 2 2 [] with script := [.csrWrite 8 9] } = .next t ∧ t.mode = .busy :=
  ⟨_, witness_inv_idle, rfl, rfl⟩

theorem witness_StepRunsDecodedInstruction :
    (let s := { idleWith 2 2 [] with script := [.csrWrite 8 9] }
     nextTurn s = .host ∧ s.script = .csrWrite 8 9 :: [] ∧ s.mode = .idle ∧ decode 9 = .ok .sharpen) ∧
    (let s := busyWith .blur 4 4 imageV11 (.pix 1 1)
     nextTurn s = .engine ∧ s.mode = .busy ∧ decode s.cmd = .ok .blur) ∧
    decodeTableWord 32 10 = some .blur := by decide

theorem hostNext_ok (m : Mode) (h : HostStmt) :
    nextTurn (hostNext m h) = .host ∧ (hostNext m h).script = h :: [] ∧ (hostNext m h).mode = m := ⟨rfl, rfl, rfl⟩

theorem witness_CsrReadsReturnRegisters : nextTurn (hostNext .busy (.csrRead 9)) = .host ∧
    (hostNext .busy (.csrRead 9)).script = .csrRead 9 :: [] := by decide

theorem witness_CsrWritesActOnRegisters :
    (∀ n, ∀ m, nextTurn (hostNext m (.csrWrite n 6)) = .host ∧ (hostNext m (.csrWrite n 6)).script = .csrWrite n 6 :: [] ∧
      (hostNext m (.csrWrite n 6)).mode = m) ∧
    (6 : Word) = encode .hueRotate ∧ ∀ i, (0x0000010B : Word) ≠ encode i :=
  ⟨fun n m => hostNext_ok m (.csrWrite n 6), by decide, fun i => by cases i <;> decide⟩

theorem witness_PixReadReturnsPixelWord :
    ((hostNext .idle (.pixRead 15)).mode = .idle ∧ 15 < (hostNext .idle (.pixRead 15)).params.pixmemBytes / 4) ∧
    (hostNext .idle (.pixRead 16)).params.pixmemBytes / 4 ≤ 16 ∧ (hostNext .busy (.pixRead 15)).mode = .busy := by decide

theorem witness_PixWriteStoresPixelWord :
    (nextTurn (hostNext .idle (.pixWrite 15 7)) = .host ∧ (hostNext .idle (.pixWrite 15 7)).pm.wf ∧
      15 < (hostNext .idle (.pixWrite 15 7)).params.pixmemBytes / 4) ∧
    (hostNext .idle (.pixWrite 16 7)).params.pixmemBytes / 4 ≤ 16 ∧ (hostNext .busy (.pixWrite 15 7)).mode = .busy := by
  decide

theorem witness_PseudoInstructionsExpand :
    (nextTurn (hostNext .busy .wait) = .host ∧ (hostNext .busy .wait).script = .wait :: [] ∧
      (hostNext .busy .wait).mode = .busy) ∧ (hostNext .idle .wait).mode = .idle ∧ 4 * 65535 * 16384 < 4294967296 := by
  decide

theorem witness_ListFiltersEnumeratesEleven : nextTurn (hostNext .busy (.csrRead 1)) = .host ∧
    (hostNext .busy (.csrRead 1)).script = .csrRead 1 :: [] := by decide

theorem witness_EngineIgnoresInterruptEnable : nextTurn (busyWith .sepia 2 2 [] .fin) = .engine := by decide

theorem witness_ProtoIsStickyAndHarmless :
    (∃ t, step { hostNext .busy (.csrWrite 4 6) with proto := true } = .next t ∧ t.proto = true) ∧
    (∃ t, step { hostNext .busy (.csrWrite 4 8) with proto := true } = .next t ∧ t.proto = false) :=
  ⟨⟨_, rfl, rfl⟩, ⟨_, rfl, rfl⟩⟩

theorem witness_FlagsChangeOnlyAsListed :
    (∃ t, step (hostNext .idle (.csrWrite 8 0)) = .next t ∧ (hostNext .idle (.csrWrite 8 0)).mode = .idle ∧ t.mode = .busy) ∧
    (∃ t, step (busyWith .blur 2 2 [] .fin) = .next t ∧ t.mode = .idle ∧ t.done = true) ∧
    (∃ t, step { hostNext .idle (.csrWrite 4 2) with done := true } = .next t ∧ t.done = false) ∧
    (∃ t, step (hostNext .idle (.csrWrite 8 11)) = .next t ∧ t.err = true) ∧
    (∃ t, step { hostNext .idle (.csrWrite 4 4) with err := true, errCode := 3 } = .next t ∧ t.err = false) :=
  ⟨⟨_, rfl, rfl, rfl⟩, ⟨_, rfl, rfl, rfl⟩, ⟨_, rfl, rfl⟩, ⟨_, rfl, rfl⟩, ⟨_, rfl, rfl⟩⟩

theorem witness_HostCannotDisturbRunningCommand : ∃ t, nextTurn (hostNext .busy (.pixWrite 0 7)) = .host ∧
    (hostNext .busy (.pixWrite 0 7)).mode = .busy ∧ step (hostNext .busy (.pixWrite 0 7)) = .next t :=
  ⟨_, by decide, rfl, rfl⟩

theorem witness_MemoriesChangeOnlyByTheirOwner :
    (∃ t, step (busyWith .invert 2 2 [] (.pix 0 0)) = .next t ∧ t.pm ≠ (busyWith .invert 2 2 [] (.pix 0 0)).pm) ∧
    (∃ t, step (hostNext .idle (.pixWrite 1 7)) = .next t ∧ t.pm ≠ (hostNext .idle (.pixWrite 1 7)).pm) ∧
    (∃ t, step { hostNext .idle (.csrWrite 8 9) with pm := [(3, 7)] } = .next t ∧ t.snap ≠ []) :=
  ⟨⟨_, rfl, by decide⟩, ⟨_, rfl, by decide⟩, ⟨_, rfl, by decide⟩⟩

theorem witness_IdleEngineIsInactive :
    nextTurn { idleWith 2 2 [] with turns := [.engine] } = .engine ∧ (idleWith 2 2 []).mode = .idle := by decide

theorem witness_DisciplinedHostNeverSetsProto :
    let s := { idleWith 2 2 [] with script := [.csrWrite 5 2, .pixWrite 15 7, .csrWrite 8 0, .csrRead 4, .wait, .pixRead 0] }
    (∃ t, step s = .next t) ∧ s.proto = false ∧ Disciplined s.params s.busy s.script :=
  ⟨⟨_, rfl⟩, rfl, by
    refine ⟨rfl, rfl, by decide, rfl, rfl, by decide, trivial⟩⟩

/-- A geometry the issue accepts, exactly filling PM (V13). -/
theorem witness_geometry : (idleWith 4 4 imageV11).GeometryOk := ⟨by decide, by decide, by decide, by decide⟩

theorem witness_AcceptedIssueStartsEngine : (idleWith 4 4 imageV11).mode = .idle ∧ (idleWith 4 4 imageV11).GeometryOk :=
  ⟨rfl, witness_geometry⟩

theorem witness_RejectedIssueReportsFirstError :
    (idleWith 0 0 []).w = 0 ∧
    (let s := { idleWith 2 2 [] with len := 12 }
     s.mode = .idle ∧ s.w ≠ 0 ∧ s.h ≠ 0 ∧ 4 * s.w * s.h ≠ s.len.toNat) ∧
    (let s := idleWith 17 1 []
     s.mode = .idle ∧ s.w ≠ 0 ∧ s.h ≠ 0 ∧ 4 * s.w * s.h = s.len.toNat ∧ s.params.pixmemBytes < 4 * s.w * s.h) := by decide

theorem witness_IllegalWordRaisesIllegalFilter :
    (nextTurn (hostNext .idle (.csrWrite 8 0x0000000B)) = .host ∧ 10 < (0x0000000B : Word).toNat % 256) ∧
    (nextTurn (hostNext .idle (.csrWrite 8 0x00000100)) = .host ∧ (0x00000100 : Word).toNat / 256 ≠ 0) := by decide

theorem witness_InvalidKernelOnlyFromConvolve :
    (∃ t, step { hostNext .idle (.csrRead 4) with errCode := 1 } = .next t ∧ t.errCode = 1) ∧
    ¬ (([[1, 1], [1, 1]] : Kernel).length % 2 = 1) :=
  ⟨⟨_, rfl, rfl⟩, by decide⟩

theorem witness_RejectionRecordOnlyGrows :
    ∃ t, step (hostNext .idle (.csrWrite 8 11)) = .next t ∧ t.rejected = [⟨.illegalFilter, 1⟩] := ⟨_, rfl, rfl⟩

/-- P4, its statement 8: the issue of colorize with `LEN = 12` is rejected, as the script intends. -/
theorem test_P4_intended_error : nextIs (step { hostNext .idle (.csrWrite 8 8) with len := 12, position := 7 })
    (fun t => statusWord t == 0x00000204 && t.rejected == [⟨.dimensionMismatch, 8⟩]) = true := by decide

/-- P4 at its end: the error was intended and recovered from, the final `STATUS` is 2, the run has not gone wrong; at the
rejected issue it had, for a script that did not intend the error. -/
theorem test_P4_went_wrong :
    ¬ { idleWith 2 2 [] with done := true, rejected := [⟨.dimensionMismatch, 8⟩] : State }.WentWrong [] ∧
    ¬ { idleWith 2 2 [] with err := true, errCode := 2, rejected := [⟨.dimensionMismatch, 8⟩] : State }.WentWrong [8] ∧
    { idleWith 2 2 [] with err := true, errCode := 2, rejected := [⟨.dimensionMismatch, 8⟩] : State }.WentWrong [] := by
  simp [State.WentWrong, idleWith, State.resetWith]

theorem witness_ErrorFlagReportsLastRejection :
    (∃ t, { idleWith 2 2 [] with err := true, errCode := 2, rejected := [⟨.dimensionMismatch, 8⟩] : State }.ErrRecorded ∧
      step { idleWith 2 2 [] with err := true, errCode := 2, rejected := [⟨.dimensionMismatch, 8⟩] } = .next t) ∧
    (∃ t, step (hostNext .idle (.csrWrite 8 11)) = .next t ∧ t.err = true ∧ t.ErrRecorded) :=
  ⟨⟨_, fun _ => ⟨_, rfl, rfl⟩, rfl⟩, ⟨_, rfl, rfl, fun _ => ⟨_, rfl, rfl⟩⟩⟩

theorem witness_GoneWrongUnlessIntended :
    let s := { idleWith 2 2 [] with err := true, errCode := 2, rejected := [⟨.dimensionMismatch, 8⟩] : State }
    (s.ErrRecorded ∧ s.proto = false ∧ ∀ r ∈ s.rejected, r.position ∈ [8]) ∧
    (hostNext .idle .wait |> setProto).proto = true ∧
    (s.err = true ∧ s.rejected.getLast? = some ⟨.dimensionMismatch, 8⟩ ∧ 8 ∉ [7]) :=
  ⟨⟨fun _ => ⟨_, rfl, rfl⟩, by decide, by decide⟩, by decide, by decide⟩

theorem witness_RoundIsNearestWithTieRule :
    ((0 : Int) < 2 ∧ 2 * (5 : Int) = (2 * 2 + 1) * 2 ∧ 2 * (-5 : Int) = (2 * (-3) + 1) * 2 ∧ (0 : Int) ≤ 0) ∧
    (1 ≤ (⟨1, 1, 0⟩ : Rgb).g.toNat ∧ (⟨254, 0, 0⟩ : Rgb).r.toNat % 2 = 0) ∧
    ((⟨2, 0, 254⟩ : Rgb).r.toNat % 2 = 0 ∧ (⟨2, 0, 254⟩ : Rgb).g.toNat % 2 = 0 ∧ (⟨2, 0, 254⟩ : Rgb).b.toNat % 2 = 0) ∧
    (49 : Int) % 100 ≠ 50 ∧ blurSum imageV8 3 1 1 0 % 4 ≠ 2 := by
  decide

theorem witness_StoredByteIsRoundedThenClamped : (0 : Int) < 2 ∧ (0 : Int) ≤ 0 ∧ 509 * (2 : Int) < 2 * 511 := by decide

/-- At a pixel of each kind of scan: the last pixel of the image, and an interior pixel. -/
theorem witness_at_pixel_point (i : Instr) (hi : scansInterior i = false) :
    (busyWith i 2 2 (pixels [0xFF0000FF]) (.pix 1 1)).AtPixel i 1 1 :=
  by cases i <;> first | exact absurd hi (by decide) | exact ⟨rfl, rfl, by decide, by decide, by decide⟩

theorem witness_InvertFiltersPixel : (busyWith .invert 2 2 (pixels [0xFF0000FF]) (.pix 1 1)).AtPixel .invert 1 1 :=
  witness_at_pixel_point _ rfl
theorem witness_BlackAndWhiteFiltersPixel :
    (busyWith .blackAndWhite 2 2 (pixels [0xFF0000FF]) (.pix 1 1)).AtPixel .blackAndWhite 1 1 := witness_at_pixel_point _ rfl
theorem witness_SepiaFiltersPixel : (busyWith .sepia 2 2 (pixels [0xFF0000FF]) (.pix 1 1)).AtPixel .sepia 1 1 ∧
    25450 < 35 * (255 : Byte).toNat + 68 * (255 : Byte).toNat + 17 * (255 : Byte).toNat ∧
    35 * (137 : Byte).toNat + 68 * (240 : Byte).toNat + 17 * (255 : Byte).toNat = 25450 :=
  ⟨witness_at_pixel_point _ rfl, by decide, by decide⟩
theorem witness_BrightnessFiltersPixel : (busyWith .brightness 2 2 (pixels [0xFF0000FF]) (.pix 1 1)).AtPixel .brightness 1 1 ∧
    (212 : Byte).toNat ≤ 212 ∧ 213 ≤ (213 : Byte).toNat := ⟨witness_at_pixel_point _ rfl, by decide, by decide⟩
theorem witness_ContrastFiltersPixel : (busyWith .contrast 2 2 (pixels [0xFF0000FF]) (.pix 1 1)).AtPixel .contrast 1 1 ∧
    (21 : Byte).toNat ≤ 21 ∧ 22 ≤ (22 : Byte).toNat ∧ (233 : Byte).toNat ≤ 233 ∧ 234 ≤ (234 : Byte).toNat ∧
    126 ≤ (126 : Byte).toNat ∧ (130 : Byte).toNat ≤ 130 := ⟨witness_at_pixel_point _ rfl, by decide⟩
theorem witness_ThresholdFiltersPixel : (busyWith .threshold 2 2 (pixels [0xFF0000FF]) (.pix 1 1)).AtPixel .threshold 1 1 :=
  witness_at_pixel_point _ rfl
theorem witness_HueRotateFiltersPixel : (busyWith .hueRotate 2 2 (pixels [0xFF0000FF]) (.pix 1 1)).AtPixel .hueRotate 1 1 :=
  witness_at_pixel_point _ rfl
theorem witness_SaturateFiltersPixel : (busyWith .saturate 2 2 (pixels [0xFF0000FF]) (.pix 1 1)).AtPixel .saturate 1 1 :=
  witness_at_pixel_point _ rfl
theorem witness_ColorizeFiltersPixel : (busyWith .colorize 2 2 (pixels [0xFF0000FF]) (.pix 1 1)).AtPixel .colorize 1 1 :=
  witness_at_pixel_point _ rfl
theorem witness_SharpenFiltersPixel : (busyWith .sharpen 2 2 (pixels [0xFF0000FF]) (.pix 1 1)).AtPixel .sharpen 1 1 :=
  witness_at_pixel_point _ rfl
theorem witness_BlurFiltersPixel : (busyWith .blur 4 4 imageV11 (.pix 2 2)).AtPixel .blur 2 2 :=
  ⟨rfl, rfl, by decide, by decide, by decide⟩

theorem witness_CompletionEndsCommand :
    ((busyWith .blur 2 2 [] .fin).mode = .busy ∧ (busyWith .blur 2 2 [] .fin).cur = .fin) ∧
    (∃ t, step (busyWith .blur 2 2 [] .fin) = .next t ∧ t.mode = .idle) ∧
    (∃ t, step { busyWith .blur 2 2 [] .fin with turns := [.reset [] []] } = .next t ∧ t.mode = .idle) :=
  ⟨by decide, ⟨_, rfl, rfl⟩, ⟨_, rfl, rfl⟩⟩

theorem witness_CommandStepFrame : (∃ t, exec .invert (busyWith .invert 2 2 [] (.pix 0 0)) = .next t) ∧
    (∃ t, exec .sharpen (idleWith 2 2 []) = .next t ∧ t.mode = .busy) := ⟨⟨_, rfl⟩, ⟨_, rfl, rfl⟩⟩

theorem witness_AlphaNeverInfluencesColour :
    let s := busyWith .invert 1 1 (pixels [0x01020304]) (.pix 0 0)
    let m := pixels [0xFF020304]
    s.mode = .busy ∧ (∃ t, exec .invert s = .next t) ∧ s.pm.wf ∧ m.wf ∧ imageBytes s.w s.h ≤ s.params.pixmemBytes ∧
      m ≠ s.pm ∧ ∀ ch, ch < 3 → m.read (pixelAddr s.w 0 0 ch) = s.pm.read (pixelAddr s.w 0 0 ch) :=
  ⟨rfl, ⟨_, rfl⟩, by decide, by decide, by decide, by decide, by decide⟩

theorem witness_EnginesAreIndependent :
    (∃ q, platformStep 0 ⟨busyWith .blur 2 2 [] .fin, [idleWith 2 2 []]⟩ = .next q) ∧
    (Platform.mk (busyWith .blur 2 2 [] .fin) [idleWith 2 2 []]).engines[0]? = some (busyWith .blur 2 2 [] .fin) :=
  ⟨⟨_, rfl⟩, rfl⟩

theorem witness_AddressMapHasNoEffect : (idleWith 2 2 []).mappedAt 0x40000000 0x50000000 ≠ idleWith 2 2 [] ∧
    nextIs (step ((busyWith .invert 2 2 [] (.pix 0 0)).mappedAt 64 128)) (fun t => t.params.pixBase == 128) = true := by
  decide

theorem witness_WholeCommandAppliesFilter : (idleWith 4 4 imageV11).mode = .idle ∧ (idleWith 4 4 imageV11).GeometryOk :=
  ⟨rfl, witness_geometry⟩

/-- An accepted geometry with a schedule and a script that interferes. -/
theorem witness_EveryScheduleCompletesCommand :
    let s := { idleWith 4 4 imageV11 with turns := [.host, .engine, .host], script := [.pixWrite 0 7, .csrWrite 8 0] }
    s.mode = .idle ∧ s.GeometryOk ∧ (∀ pm snap, Turn.reset pm snap ∉ s.turns) ∧ ∃ u, exec .blur s = .next u :=
  ⟨rfl, ⟨by decide, by decide, by decide, by decide⟩, by simp, _, rfl⟩

theorem witness_SequentialCommandsCompose :
    let s := { idleWith 4 4 imageV11 with turns := [.engine], script := [.csrWrite 8 9, .wait, .csrWrite 8 10, .wait] }
    s.mode = .idle ∧ s.GeometryOk ∧ (∀ pm snap, Turn.reset pm snap ∉ s.turns) ∧
      s.script = stmtApply .sharpen ++ [.wait] ++ stmtApply .blur ++ [.wait] :=
  ⟨rfl, ⟨by decide, by decide, by decide, by decide⟩, by simp, by decide⟩

theorem witness_InvertTwiceRestoresImage : imageV11.wf := by decide

theorem witness_PointCommandMapsEveryPixel : imageV8.wf ∧ pointFunction .even .threshold = some filterThreshold := ⟨by decide, rfl⟩

theorem witness_ConvolveMeetsContract : ([[0, 0, 0], [0, 1, 0], [0, 0, 1 / 2]] : Kernel).length % 2 = 1 ∧
    ∀ row ∈ ([[0, 0, 0], [0, 1, 0], [0, 0, 1 / 2]] : Kernel), row.length = 3 := by simp

theorem witness_SharpenIsConvolveWithItsKernel : imageV8.wf := by decide

/-- V7: the 3 by 3 flat image, red 200. -/
theorem witness_FlatAndSinglePixelConvolutions :
    let m := pixels (List.replicate 9 0xFF400AC8)
    m.wf ∧ (∀ x, x < 3 → ∀ y, y < 3 → m.read (pixelAddr 3 x y 0) = 200) ∧ ([[3]] : Kernel).length % 2 = 1 ∧
      (m.write 36 1 ≠ m ∧ ∀ a, a < 4 * 3 * 3 → (m.write 36 1).read a = m.read a) :=
  ⟨by decide, by decide, rfl, by decide, by decide⟩

theorem witness_BlurFeedsBackInScanOrder : imageV11.wf ∧ (1 ≤ 2 ∧ 2 + 1 < 4) ∧ (3 < 4 ∧ 3 + 1 = 4) := by decide

theorem witness_BlurNeverWritesBorder :
    (∃ t, exec .blur (busyWith .blur 4 4 imageV11 (.pix 1 1)) = .next t) ∧
    (let s := idleWith 2 5 []
     s.mode = .idle ∧ s.GeometryOk ∧ (s.w < 3 ∨ s.h < 3)) :=
  ⟨⟨_, rfl⟩, rfl, ⟨by decide, by decide, by decide, by decide⟩, by decide⟩

end Sys2Proof.Tests
end

section
/-! SUPPORT. What an effect of a step leaves of each part of the state: the parameters, the memories, the flags and the
running command, each first for the named updates and then for every effect. -/

namespace Sys2Proof.Machine

/-- The state a host statement acts on, in terms of the two updates whose fields Laws/State.lean gives. -/
@[simp] theorem afterTake_eq (rest : List HostStmt) (s : State) : afterTake rest s = takeStmt rest (takeTurn s) := rfl

/-- Only sharpen holds a kernel, so only sharpen captures the snapshot (R39, R171). -/
theorem eq_sharpen_of_usesKernel {i : Instr} (h : usesKernel i = true) : i = .sharpen := by
  cases i with
  | sharpen => rfl
  | _ => cases h

variable {s t : State}

/-! ### The parameters -/

theorem StepEffect.params_eq (h : StepEffect s t) : t.params = s.params := by
  cases h with
  | issueAccepted => split <;> rfl
  | _ => rfl

/-! ### The memories -/

/-- The bytes of a performed pixel write exist (R27, R66). -/
theorem pixWord_lt {p : Params} {q : Nat} (h : q < pixcap p) : 4 * q + 3 < p.pixmemBytes := by
  unfold pixcap at h; omega

/-- A pixel store whose last byte exists stays inside the memory. -/
theorem putRgb_below_of_addr {m : Memory} {n w x y : Nat} (hm : m.below n) (ha : pixelAddr w x y 2 < n) (c : Rgb) :
    (putRgb m w x y c).below n := by
  have h0 : pixelAddr w x y 0 < n := by unfold pixelAddr at ha ⊢; omega
  have h1 : pixelAddr w x y 1 < n := by unfold pixelAddr at ha ⊢; omega
  exact Memory.write_below (Memory.write_below (Memory.write_below hm h0 _) h1 _) ha _

theorem State.MemoryOk.captureSnap (h : s.MemoryOk) : (captureSnap s).MemoryOk :=
  ⟨h.pmWf, h.pmBelow, Memory.copyBelow_wf h.pmWf h.snapWf _, Memory.copyBelow_below h.pmBelow h.snapBelow _⟩

/-- Whatever contents a reset draws (R43). -/
theorem memoryOk_resetEngine (pm snap : Memory) (s : State) : (resetEngine pm snap s).MemoryOk :=
  ⟨Memory.draw_wf Memory.wf_nil pm, Memory.draw_below (by simp [Memory.below]) pm,
    Memory.draw_wf Memory.wf_nil snap, Memory.draw_below (by simp [Memory.below]) snap⟩

theorem StepEffect.memoryOk (h : StepEffect s t) (hm : s.MemoryOk) : t.MemoryOk := by
  obtain ⟨hpw, hpb, hsw, hsb⟩ := hm
  cases h with
  | pixWrite p v rest _ _ _ hp =>
    exact ⟨Memory.writeWord_wf hpw _ v, Memory.writeWord_below hpb (pixWord_lt hp) v, hsw, hsb⟩
  | pixel i y x c _ _ _ _ _ ha => exact ⟨putRgb_wf hpw _ x y c, putRgb_below_of_addr hpb ha c, hsw, hsb⟩
  | issueAccepted i rest =>
    have hb : (beginIssue (encode i) (afterTake rest s)).MemoryOk := ⟨hpw, hpb, hsw, hsb⟩
    split
    · obtain ⟨hpw', hpb', hsw', hsb'⟩ := hb.captureSnap
      exact ⟨hpw', hpb', hsw', hsb'⟩
    · exact ⟨hpw, hpb, hsw, hsb⟩
  | reset pm snap => exact memoryOk_resetEngine pm snap _
  | _ => exact ⟨hpw, hpb, hsw, hsb⟩

/-- PM changes by an engine step at a pixel, a performed `PixWrite` or a reset only (R22, R38). -/
theorem StepEffect.pm_owner (h : StepEffect s t) (hne : t.pm ≠ s.pm) :
    (nextTurn s = .engine ∧ s.mode = .busy ∧ s.cur ≠ .fin) ∨
    (nextTurn s = .host ∧ s.mode = .idle ∧ ∃ p v rest, s.script = .pixWrite p v :: rest ∧ p < pixcap s.params) ∨
    ∃ pm snap, nextTurn s = .reset pm snap := by
  cases h with
  | pixel i y x c hn hm _ hc => exact .inl ⟨hn, hm, by simp [hc]⟩
  | pixWrite p v rest hn hs hm hp => exact .inr (.inl ⟨hn, hm, p, v, rest, hs, hp⟩)
  | reset pm snap hn => exact .inr (.inr ⟨pm, snap, hn⟩)
  | issueAccepted => split at hne <;> exact absurd rfl hne
  | _ => exact absurd rfl hne

/-- SNAP changes by the issue of sharpen or a reset only (R39). -/
theorem StepEffect.snap_owner (h : StepEffect s t) (hne : t.snap ≠ s.snap) :
    (nextTurn s = .host ∧ s.mode = .idle ∧ ∃ rest, s.script = .csrWrite 8 (encode .sharpen) :: rest) ∨
    ∃ pm snap, nextTurn s = .reset pm snap := by
  cases h with
  | issueAccepted i rest hn hs hm =>
    split at hne
    · next hk => exact .inl ⟨hn, hm, rest, eq_sharpen_of_usesKernel hk ▸ hs⟩
    · exact absurd rfl hne
  | reset pm snap hn => exact .inr ⟨pm, snap, hn⟩
  | _ => exact absurd rfl hne

/-! ### The flags -/

theorem IssueError.code_ne_zero (e : IssueError) : e.code ≠ 0 := by cases e <;> decide

theorem IssueError.code_le (e : IssueError) : e.code.toNat ≤ 5 := by cases e <;> decide

/-- Clearing flags by writing ones breaks no invariant of the flags: `ERRCODE` goes with `ERR` (R29, R179). -/
theorem State.FlagsOk.ackStatus (h : s.FlagsOk) (v : Word) : (ackStatus v s).FlagsOk := by
  obtain ⟨hbd, hbe, hde, hce, hcr⟩ := h
  refine ⟨?_, ?_, ?_, ?_, ?_⟩
  · simp only [ackStatus_mode, ackStatus_done, Bool.and_eq_true]; tauto
  · simp only [ackStatus_mode, ackStatus_err, Bool.and_eq_true]; tauto
  · simp only [ackStatus_done, ackStatus_err, Bool.and_eq_true]; tauto
  · rw [ackStatus_errCode, ackStatus_err]
    split
    · next hb => simp [(Bool.and_eq_true_iff.1 hb).2]
    · next hb => rw [hce]; simpa using hb
  · rw [ackStatus_errCode]
    split
    · exact Nat.zero_le 5
    · exact hcr

/-- A rejected issue of an idle engine sets `ERR` and the code, beside cleared flags (R110, R178). -/
theorem flagsOk_rejected (hm : s.mode = .idle) (e : IssueError) (v : Word) :
    (raiseError e (beginIssue v s)).FlagsOk where
  busyDone := by simp
  busyErr := by simp [hm]
  doneErr := by simp
  codeErr := by simpa using e.code_ne_zero
  codeRange := e.code_le

/-- A command starts with `DONE`, `ERR` and `ERRCODE` clear (R110). -/
theorem flagsOk_startEngine (hd : s.done = false) (he : s.err = false) (hc : s.errCode = 0) (i : Instr) :
    (startEngine i s).FlagsOk where
  busyDone := by simp [hd]
  busyErr := by simp [he]
  doneErr := by simp [he]
  codeErr := by simp [he, hc]
  codeRange := by simp [hc]

/-- The completion of a busy engine sets `DONE` where `ERR` is clear (R113). -/
theorem State.FlagsOk.complete (h : s.FlagsOk) (hm : s.mode = .busy) : (complete s).FlagsOk where
  busyDone := by simp
  busyErr := by simp
  doneErr := fun hde => h.busyErr ⟨hm, hde.2⟩
  codeErr := h.codeErr
  codeRange := h.codeRange

theorem flagsOk_resetEngine (pm snap : Memory) (s : State) : (resetEngine pm snap s).FlagsOk :=
  ⟨by simp, by simp, by simp, by simp, by simp⟩

theorem StepEffect.flagsOk (h : StepEffect s t) (hf : s.FlagsOk) : t.FlagsOk := by
  have hturn : (takeTurn s).FlagsOk := ⟨hf.busyDone, hf.busyErr, hf.doneErr, hf.codeErr, hf.codeRange⟩
  have htake (rest : List HostStmt) : (afterTake rest s).FlagsOk :=
    ⟨hf.busyDone, hf.busyErr, hf.doneErr, hf.codeErr, hf.codeRange⟩
  cases h with
  | status v rest => exact (htake rest).ackStatus v
  | illegalWord v rest _ _ _ hm => exact flagsOk_rejected (s := afterTake rest s) hm _ v
  | issueRejected i e rest _ _ hm => exact flagsOk_rejected (s := afterTake rest s) hm e _
  | issueAccepted i => split <;> exact flagsOk_startEngine rfl rfl rfl i
  | completion _ hm => exact hturn.complete hm
  | reset pm snap => exact flagsOk_resetEngine pm snap _
  | _ => exact ⟨hf.busyDone, hf.busyErr, hf.doneErr, hf.codeErr, hf.codeRange⟩

/-- An issue attempt: a host write of `CMD` while IDLE (R110). -/
def State.IssueAttempt (s : State) : Prop :=
  nextTurn s = .host ∧ s.mode = .idle ∧ ∃ v rest, s.script = .csrWrite 8 v :: rest

/-- The host acknowledges the status bit `k` by writing a one to it (R29, R179). -/
def State.Acknowledges (s : State) (k : Nat) : Prop :=
  nextTurn s = .host ∧ ∃ v rest, s.script = .csrWrite 4 v :: rest ∧ v.getLsbD k = true

/-- The state takes a reset turn (R200). -/
def State.ResetTurn (s : State) : Prop := ∃ pm snap, nextTurn s = .reset pm snap

/-- `BUSY` is set by a successful issue only (R29, R110). -/
theorem StepEffect.busy_set (h : StepEffect s t) (hs : s.mode = .idle) (ht : t.mode = .busy) :
    nextTurn s = .host ∧ ∃ i rest, s.script = .csrWrite 8 (encode i) :: rest ∧ issueError i s = none := by
  cases h with
  | issueAccepted i rest hn hscr _ he => exact ⟨hn, i, rest, hscr, he⟩
  | _ => simp [hs, issueIllegal] at ht

/-- `BUSY` is cleared by the completion step or a reset only (R29, R113). -/
theorem StepEffect.busy_cleared (h : StepEffect s t) (hs : s.mode = .busy) (ht : t.mode = .idle) :
    (nextTurn s = .engine ∧ s.cur = .fin ∧ t = complete (takeTurn s)) ∨ s.ResetTurn := by
  cases h with
  | completion hn _ hc => exact .inl ⟨hn, hc, rfl⟩
  | reset pm snap hn => exact .inr ⟨pm, snap, hn⟩
  | _ => simp [hs, issueIllegal] at ht

/-- `DONE` is set by the completion step only (R29, R113). -/
theorem StepEffect.done_set (h : StepEffect s t) (hs : s.done = false) (ht : t.done = true) :
    nextTurn s = .engine ∧ s.mode = .busy ∧ s.cur = .fin := by
  cases h with
  | completion hn hm hc => exact ⟨hn, hm, hc⟩
  | issueAccepted => split at ht <;> simp at ht
  | _ => simp [hs, issueIllegal] at ht

/-- `DONE` is cleared by its acknowledgement, an issue attempt or a reset only (R29). -/
theorem StepEffect.done_cleared (h : StepEffect s t) (hs : s.done = true) (ht : t.done = false) :
    s.Acknowledges 1 ∨ s.IssueAttempt ∨ s.ResetTurn := by
  cases h with
  | status v rest hn hscr => exact .inl ⟨hn, v, rest, hscr, by simpa [hs] using ht⟩
  | illegalWord _ _ _ hn hscr hm | issueRejected _ _ _ hn hscr hm | issueAccepted _ _ hn hscr hm =>
    exact .inr (.inl ⟨hn, hm, _, _, hscr⟩)
  | reset pm snap hn => exact .inr (.inr ⟨pm, snap, hn⟩)
  | _ => simp [hs] at ht

/-- `ERR` is set by an issue attempt only (R29, R178). -/
theorem StepEffect.err_set (h : StepEffect s t) (hs : s.err = false) (ht : t.err = true) : s.IssueAttempt := by
  cases h with
  | illegalWord _ _ _ hn hscr hm | issueRejected _ _ _ hn hscr hm | issueAccepted _ _ hn hscr hm =>
    exact ⟨hn, hm, _, _, hscr⟩
  | _ => simp [hs] at ht

/-- `ERR` is cleared by its acknowledgement, an issue attempt or a reset only (R29). -/
theorem StepEffect.err_cleared (h : StepEffect s t) (hs : s.err = true) (ht : t.err = false) :
    s.Acknowledges 2 ∨ s.IssueAttempt ∨ s.ResetTurn := by
  cases h with
  | status v rest hn hscr => exact .inl ⟨hn, v, rest, hscr, by simpa [hs] using ht⟩
  | illegalWord _ _ _ hn hscr hm | issueRejected _ _ _ hn hscr hm | issueAccepted _ _ hn hscr hm =>
    exact .inr (.inl ⟨hn, hm, _, _, hscr⟩)
  | reset pm snap hn => exact .inr (.inr ⟨pm, snap, hn⟩)
  | _ => simp [hs] at ht

/-! ### The running command -/

/-- A command whose issue checks passed starts with its cursor in its scan (R37, R110). -/
theorem running_startEngine {i : Instr} (hc : s.cmd = encode i)
    (hg : 0 < s.w ∧ 0 < s.h ∧ imageBytes s.w s.h = s.len.toNat ∧ imageBytes s.w s.h ≤ s.params.pixmemBytes) :
    (startEngine i s).Running i :=
  ⟨hc, hg.1, hg.2.1, hg.2.2.1, hg.2.2.2, startCursor_ok i hg.1 hg.2.1⟩

/-- The kind a running engine reads from `CMD` is the command it runs (R111). -/
theorem State.Running.eq_of_decodeKind {i j : Instr} (h : s.Running j) (hi : decodeKind s.cmd = .ok i) : i = j := by
  rw [h.command, decodeKind_encode] at hi
  exact (Except.ok.inj hi).symm

theorem StepEffect.running (h : StepEffect s t) (hr : s.mode = .busy → ∃ i, s.Running i) (ht : t.mode = .busy) :
    ∃ i, t.Running i := by
  cases h with
  | issueAccepted i rest _ _ _ he =>
    have hg := (issueError_none_iff i s).1 he
    refine ⟨i, ?_⟩
    split <;> exact running_startEngine rfl hg
  | pixel i y x c _ hm hi _ hs =>
    obtain ⟨j, hj⟩ := hr hm
    obtain rfl := hj.eq_of_decodeKind hi
    exact ⟨i, hj.command, hj.widthPos, hj.heightPos, hj.lengthOk, hj.fits, nextCursor_ok hs⟩
  | width _ _ _ _ hm | height _ _ _ _ hm | len _ _ _ _ hm | illegalWord _ _ _ _ _ hm | issueRejected _ _ _ _ _ hm =>
    exact absurd (hm.symm.trans ht) (by decide)
  | completion | reset => exact absurd ht (by simp)
  | _ =>
    obtain ⟨i, hi⟩ := hr ht
    exact ⟨i, hi.command, hi.widthPos, hi.heightPos, hi.lengthOk, hi.fits, hi.cursor⟩

/-- While BUSY every effect of a host turn leaves what the running command works on (R36, R70, R203). -/
theorem StepEffect.host_busy_frame (h : StepEffect s t) (hn : nextTurn s = .host) (hm : s.mode = .busy) :
    t.pm = s.pm ∧ t.snap = s.snap ∧ t.width = s.width ∧ t.height = s.height ∧ t.len = s.len ∧ t.cmd = s.cmd ∧
      t.mode = .busy ∧ t.cur = s.cur := by
  cases h with
  | width _ _ _ _ hi | height _ _ _ _ hi | len _ _ _ _ hi | illegalWord _ _ _ _ _ hi | issueRejected _ _ _ _ _ hi
  | issueAccepted _ _ _ _ hi | pixWrite _ _ _ _ _ hi => exact absurd (hi.symm.trans hm) (by decide)
  | completion he | pixel _ _ _ _ he | reset _ _ he => exact absurd (hn.symm.trans he) (by simp)
  | _ => exact ⟨rfl, rfl, rfl, rfl, rfl, rfl, hm, rfl⟩

end Sys2Proof.Machine
end

section
/-! SUPPORT. The registers as the host reads them, after a reset and bit by bit, and the steps that run a command. -/

namespace Sys2Proof.Machine

/-- Bit 0 of `CTRL` is `IE` (R28). -/
theorem ctrlWord_ie (s : State) : (ctrlWord s).getLsbD 0 = s.ie := by
  simp only [ctrlWord, BitVec.getLsbD_append, BitVec.getLsbD_ofBool]
  simp

/-- Bit 1 of `STATUS` is `DONE` (R29). -/
theorem statusWord_done (s : State) : (statusWord s).getLsbD 1 = s.done := by
  simp only [statusWord, BitVec.getLsbD_append, BitVec.getLsbD_ofBool]
  simp

/-- Bit 2 of `STATUS` is `ERR` (R29). -/
theorem statusWord_err (s : State) : (statusWord s).getLsbD 2 = s.err := by
  simp only [statusWord, BitVec.getLsbD_append, BitVec.getLsbD_ofBool]
  simp

/-- After reset every CSR but the three constant ones reads zero (R34, R43). -/
theorem csrValue_resetWith (p : Params) (pm snap : Memory) {n : Nat} (hn : 3 ≤ n) :
    csrValue n (State.resetWith p pm snap) = 0 := by
  match n, hn with
  | 3, _ =>
    show (0 : BitVec 31) ++ BitVec.ofBool false = 0
    decide
  | 4, _ =>
    show (0 : BitVec 20) ++ (0 : BitVec 4) ++ (0 : BitVec 4) ++ BitVec.ofBool false ++ BitVec.ofBool false ++
      BitVec.ofBool false ++ BitVec.ofBool false = 0
    decide
  | 5, _ | 6, _ | 7, _ | 8, _ => rfl
  | n + 9, _ => rfl

/-- A reset leaves the CSRs as State.resetWith has them, whatever memories either draws. -/
theorem csrValue_resetEngine (pm snap pm' snap' : Memory) (s : State) (n : Nat) :
    csrValue n (resetEngine pm snap s) = csrValue n (State.resetWith s.params pm' snap') := rfl

/-- After reset with well-formed parameters nothing is listed, no flag is set and the engine is IDLE (R43). -/
theorem inv_resetWith {p : Params} (hp : p.WellFormed) : (State.resetWith p [] []).Inv where
  params := hp
  memory := ⟨Memory.wf_nil, by simp [State.resetWith], Memory.wf_nil, by simp [State.resetWith]⟩
  flags := ⟨by simp [State.resetWith], by simp [State.resetWith], by simp [State.resetWith],
    by simp [State.resetWith], by simp [State.resetWith]⟩
  running := fun h => by cases h

theorem hostStep_csrWrite {s : State} {n : Nat} {v : Word} {rest : List HostStmt}
    (hs : s.script = .csrWrite n v :: rest) : hostStep s = csrWrite n v (takeStmt rest s) := by
  simp [hostStep, hs]

theorem writeCmd_idle {s : State} {v : Word} {i : Instr} (hm : s.mode = .idle) (hd : decode v = .ok i) :
    writeCmd v s = exec i s := by
  simp [writeCmd, hm, hd]

/-- A host write of a command word to `CMD` while IDLE runs that command (R33). -/
theorem step_writeCommand {s : State} {v : Word} {rest : List HostStmt} {i : Instr} (hn : nextTurn s = .host)
    (hs : s.script = .csrWrite 8 v :: rest) (hm : s.mode = .idle) (hd : decode v = .ok i) :
    step s = exec i (afterTake rest s) := by
  rw [step_host hn, hostStep_csrWrite (s := takeTurn s) hs]
  exact writeCmd_idle (s := afterTake rest s) hm hd

/-- An engine turn while BUSY runs the command in `CMD` (R111). -/
theorem step_busyEngine {s : State} {i : Instr} (hn : nextTurn s = .engine) (hm : s.mode = .busy)
    (hd : decode s.cmd = .ok i) : step s = exec i (takeTurn s) := by
  rw [step_engine hn]
  refine engineTurn_busy (s := takeTurn s) hm ?_
  rw [takeTurn_cmd, decode_ok hd, decodeKind_encode]

/-- A table word that decodes is decoded as the command word it stands for. -/
theorem decode_of_decodeTableWord {nbits w : Nat} {i : Instr} (h : decodeTableWord nbits w = some i) :
    decode (BitVec.ofNat 32 (tableWord nbits w)) = .ok i := by
  unfold decodeTableWord at h
  split at h
  · split at h
    · next j hj => rw [hj, Option.some.inj h]
    · cases h
  · cases h

/-- The next step of a state that withFetchWord made runs the command fetched. -/
theorem step_withFetchWord (s : State) {nbits w : Nat} {i : Instr} (h : decodeTableWord nbits w = some i) :
    step (s.withFetchWord nbits w) = exec i (takeStmt s.script { s with mode := .idle }) :=
  step_writeCommand (s := s.withFetchWord nbits w) rfl rfl rfl (decode_of_decodeTableWord h)

end Sys2Proof.Machine
end

section
/-! The statements of spec/10_state.md: the invariant, the owners of each part of the state, reset and the step. -/

namespace Sys2Proof.Machine

/-- Settles O6: the three parts of the invariant are each kept by every effect of a step. -/
theorem everyStepKeepsInvariant : Obligations.EveryStepKeepsInvariant := by
  intro s t hs hstep
  have h := step_effect hstep
  exact ⟨h.params_eq ▸ hs.params, h.memoryOk hs.memory, h.flagsOk hs.flags, h.running hs.running⟩

/-- Settles O8. -/
theorem stepsKeepParameters : Obligations.StepsKeepParameters :=
  fun _ _ hstep => (step_effect hstep).params_eq

/-- Settles O19: flag by flag, from the effects of a step that set or clear it. -/
theorem flagsChangeOnlyAsListed : Obligations.FlagsChangeOnlyAsListed := by
  intro s t hstep
  have h := step_effect hstep
  exact ⟨h.busy_set, h.busy_cleared, h.done_set, h.done_cleared, h.err_set, h.err_cleared⟩

/-- Settles O20. -/
theorem hostCannotDisturbRunningCommand : Obligations.HostCannotDisturbRunningCommand :=
  fun _ _ hn hm hstep => (step_effect hstep).host_busy_frame hn hm

/-- Settles O21. -/
theorem memoriesChangeOnlyByTheirOwner : Obligations.MemoriesChangeOnlyByTheirOwner :=
  fun _ _ hstep => ⟨(step_effect hstep).pm_owner, (step_effect hstep).snap_owner⟩

/-- Settles O3: a reset turn is resetEngine, whose CSRs are those of State.resetWith. -/
theorem resetLeavesResetValues : Obligations.ResetLeavesResetValues := by
  refine ⟨fun s pm snap hn => ⟨_, step_reset hn, rfl, ?tieEven, ?tieUp, ?tieAway, rfl, ?zero, rfl, rfl, rfl, ?pm, ?snap⟩,
    rfl, by decide, fun n h3 => csrValue_resetWith _ _ _ h3, rfl, rfl, rfl⟩
  case tieEven | tieUp | tieAway =>
    intro ht
    simp only [csrValue, ht]
    decide
  case zero =>
    intro n h3
    rw [csrValue_resetEngine pm snap [] []]
    exact csrValue_resetWith _ _ _ h3
  case pm | snap =>
    intro hwf a ha
    exact Memory.read_draw_empty hwf ha

/-- Settles O4. -/
theorem resetKeepsHostSide : Obligations.ResetKeepsHostSide :=
  fun _ _ _ hn => ⟨_, step_reset hn, rfl, rfl, rfl, rfl, rfl, rfl⟩

/-- Settles O5. -/
theorem resetStateMeetsInvariant : Obligations.ResetStateMeetsInvariant :=
  ⟨inv_resetWith (by decide), fun _ hp => inv_resetWith hp⟩

/-- Settles O9. -/
theorem stepRunsDecodedInstruction : Obligations.StepRunsDecodedInstruction :=
  ⟨fun _ _ _ _ hn hs hm hd => step_writeCommand hn hs hm hd, fun _ _ hn hm hd => step_busyEngine hn hm hd,
    fun s _ _ hd _ => step_withFetchWord s hd⟩

/-- Settles O16: the bits of CSR 3 and 4 are the flags of which irq is a function. -/
theorem interruptLineFollowsFlags : Obligations.InterruptLineFollowsFlags := by
  intro s
  show irq s = ((ctrlWord s).getLsbD 0 && ((statusWord s).getLsbD 1 || (statusWord s).getLsbD 2))
  rw [ctrlWord_ie, statusWord_done, statusWord_err]
  rfl

end Sys2Proof.Machine
end

section
/-! SUPPORT. One host statement, said once: what it does to the state once the turn and the statement are taken
(R63 to R66). -/

namespace Sys2Proof.Machine

variable {s : State} {n p : Nat} {v : Word} {rest : List HostStmt}

theorem step_csrRead (hn : nextTurn s = .host) (hs : s.script = .csrRead n :: rest) :
    step s = .next (receive (csrValue n s) (afterTake rest s)) := by
  have hs' : (takeTurn s).script = .csrRead n :: rest := hs
  rw [step_host hn, hostStep, hs']
  rfl

theorem step_csrWrite (hn : nextTurn s = .host) (hs : s.script = .csrWrite n v :: rest) :
    step s = csrWrite n v (afterTake rest s) := by
  rw [step_host hn, hostStep_csrWrite (s := takeTurn s) hs]
  rfl

theorem step_pixRead (hn : nextTurn s = .host) (hs : s.script = .pixRead p :: rest) :
    step s = .next (receive (pixValue p s) (pixReadState p (afterTake rest s))) := by
  have hs' : (takeTurn s).script = .pixRead p :: rest := hs
  rw [step_host hn, hostStep, hs']
  rfl

theorem step_pixWrite (hn : nextTurn s = .host) (hs : s.script = .pixWrite p v :: rest) :
    step s = .next (pixWrite p v (afterTake rest s)) := by
  have hs' : (takeTurn s).script = .pixWrite p v :: rest := hs
  rw [step_host hn, hostStep, hs']
  rfl

/-! ### CSR writes -/

/-- The constant and the reserved CSRs ignore writes (R34, R64). -/
theorem csrWrite_ignored (v : Word) (s : State) (h : n ≤ 2 ∨ 9 ≤ n) : csrWrite n v s = .next s := by
  unfold csrWrite
  split
  case h_7 => rfl
  all_goals omega

theorem ownedWrite_idle (hm : s.mode = .idle) (t : State) : ownedWrite t s = t := by simp [ownedWrite, hm]

theorem ownedWrite_busy (hm : s.mode = .busy) (t : State) : ownedWrite t s = setProto s := by simp [ownedWrite, hm]

/-- A write of a word that is no command is the issue of an illegal word (R93, R173). -/
theorem writeCmd_illegal (hm : s.mode = .idle) (hv : ∀ i, v ≠ encode i) : writeCmd v s = .next (issueIllegal v s) := by
  cases hd : decode v with
  | ok i => exact absurd (decode_ok hd) (hv i)
  | error e => simp [writeCmd, hm, hd]

theorem writeCmd_busy (hm : s.mode = .busy) (v : Word) : writeCmd v s = .next (setProto s) := by simp [writeCmd, hm]

/-- While BUSY a write of a register the engine owns is dropped and flagged (R70). -/
theorem csrWrite_busy (hm : s.mode = .busy) (v : Word) (h : 5 ≤ n ∧ n ≤ 8) : csrWrite n v s = .next (setProto s) := by
  obtain rfl | rfl | rfl | rfl : n = 5 ∨ n = 6 ∨ n = 7 ∨ n = 8 := by omega
  case inr.inr.inr => exact writeCmd_busy hm v
  all_goals exact congrArg Host.Outcome.next (ownedWrite_busy hm _)

/-! ### Pixel accesses -/

theorem pixPerformed_of_idle (hm : s.mode = .idle) (hp : p < pixcap s.params) : pixPerformed p s = true :=
  (pixPerformed_iff p s).2 ⟨hm, hp⟩

/-- The engine performs no access while BUSY or beyond the last pixel word (R65, R66). -/
theorem pixPerformed_dropped (h : s.mode = .busy ∨ pixcap s.params ≤ p) : pixPerformed p s = false := by
  rw [Bool.eq_false_iff, Ne, pixPerformed_iff]
  rintro ⟨hm, hp⟩
  rcases h with hb | hc
  · exact absurd (hm.symm.trans hb) (by decide)
  · omega

/-- Byte `k` of a word read is the byte at the address plus `k` (R9, R62). -/
theorem Memory.extractLsb'_readWord (m : Memory) (a : Nat) {k : Nat} (hk : k < 4) :
    (m.readWord a).extractLsb' (8 * k) 8 = m.read (a + k) := by
  ext j hj
  rw [BitVec.getElem_extractLsb', Nat.add_comm]
  simp only [Memory.readWord, BitVec.getLsbD_append, ← BitVec.getLsbD_eq_getElem]
  obtain rfl | rfl | rfl | rfl : k = 0 ∨ k = 1 ∨ k = 2 ∨ k = 3 := by omega
  all_goals
    have h16 : ¬ j + 16 < 8 := by omega
    have h24 : ¬ j + 24 < 8 := by omega
    simp [hj, h16, h24]

end Sys2Proof.Machine
end

section
/-! SUPPORT. The words of CSR 3, CSR 4 and the reserved CSRs, field by field (R28, R29, R34). -/

namespace Sys2Proof.Machine

/-- `CTRL` is `IE` alone (R28). -/
theorem ctrlWord_eq (s : State) : ctrlWord s = if s.ie then 1 else 0 := by
  unfold ctrlWord
  cases s.ie <;> decide

/-- Bit 3 of `STATUS` is `PROTO` (R29). -/
theorem statusWord_proto (s : State) : (statusWord s).getLsbD 3 = s.proto := by
  simp only [statusWord, BitVec.getLsbD_append, BitVec.getLsbD_ofBool]
  simp

/-- Bits 11:8 of `STATUS` are `ERRCODE` (R29). -/
theorem statusWord_errCode (s : State) : (statusWord s).extractLsb' 8 4 = s.errCode := by
  ext j hj
  rw [BitVec.getElem_extractLsb', Nat.add_comm]
  simp only [statusWord, BitVec.getLsbD_append]
  simp [hj]

/-- Bits 7:4 of `STATUS` read zero (R29). -/
theorem statusWord_reserved_low (s : State) : (statusWord s).extractLsb' 4 4 = 0 := by
  ext j hj
  rw [BitVec.getElem_extractLsb', Nat.add_comm]
  simp only [statusWord, BitVec.getLsbD_append]
  simp [hj]

/-- Bits 31:12 of `STATUS` read zero (R29). -/
theorem statusWord_reserved_high (s : State) : (statusWord s).extractLsb' 12 20 = 0 := by
  ext j hj
  rw [BitVec.getElem_extractLsb', Nat.add_comm]
  simp only [statusWord, BitVec.getLsbD_append]
  simp

/-- The reserved CSRs read zero (R34). -/
theorem csrValue_reserved (s : State) {n : Nat} (hn : 9 ≤ n) : csrValue n s = 0 := by
  obtain ⟨k, rfl⟩ := Nat.exists_eq_add_of_le' hn
  rfl

end Sys2Proof.Machine
end

section
/-! SUPPORT. The discipline of a host script (R70, R203): what it says of the rest of the script after each statement,
and that every effect of a step keeps it. -/

namespace Sys2Proof.Machine

section
variable {p : Params} {pending : Bool} {l rest : List HostStmt} {n q : Nat} {v : Word}

/-- The weaker the claim that a command may still be running, the weaker the discipline. -/
theorem Disciplined.mono {pending' : Bool} (h : Disciplined p pending l) (hb : pending' = true → pending = true) :
    Disciplined p pending' l := by
  induction l generalizing pending pending' with
  | nil => trivial
  | cons c rest ih =>
    have hfalse (hp : pending = false) : pending' = false := by
      cases pending' with
      | false => rfl
      | true => exact absurd (hp.symm.trans (hb rfl)) (by decide)
    cases c with
    | wait => exact h
    | csrRead n => exact ih h hb
    | csrWrite n v =>
      simp only [Disciplined] at h ⊢
      split_ifs at h ⊢
      · exact ⟨hfalse h.1, h.2⟩
      · exact ⟨hfalse h.1, ih h.2 hb⟩
      · exact ih h hb
    | pixRead q | pixWrite q v => exact ⟨hfalse h.1, h.2.1, ih h.2.2 hb⟩

theorem Disciplined.after_wait (h : Disciplined p pending l) (hl : l = .wait :: rest) : Disciplined p false rest := by
  subst hl; exact h

theorem Disciplined.after_csrRead (h : Disciplined p pending l) (hl : l = .csrRead n :: rest) :
    Disciplined p pending rest := by
  subst hl; exact h

theorem Disciplined.pixRead (h : Disciplined p pending l) (hl : l = .pixRead q :: rest) :
    pending = false ∧ q < pixcap p ∧ Disciplined p pending rest := by
  subst hl; exact h

theorem Disciplined.pixWrite (h : Disciplined p pending l) (hl : l = .pixWrite q v :: rest) :
    pending = false ∧ q < pixcap p ∧ Disciplined p pending rest := by
  subst hl; exact h

/-- A write of `CMD` may start a command. -/
theorem Disciplined.after_command (h : Disciplined p pending l) (hl : l = .csrWrite 8 v :: rest) :
    Disciplined p true rest := by
  subst hl; exact h.2

/-- A write of any other CSR starts none. -/
theorem Disciplined.after_csrWrite (h : Disciplined p pending l) (hl : l = .csrWrite n v :: rest) (hn : n ≠ 8) :
    Disciplined p pending rest := by
  subst hl
  simp only [Disciplined, if_neg hn] at h
  split_ifs at h
  · exact h.2
  · exact h

/-- The owned registers are written only when no command may be running. -/
theorem Disciplined.not_pending (h : Disciplined p pending l) (hl : l = .csrWrite n v :: rest) (hn : 5 ≤ n ∧ n ≤ 8) :
    pending = false := by
  subst hl
  simp only [Disciplined] at h
  split_ifs at h
  · exact h.1
  · exact h.1
  · omega

end

/-- Every effect of a step keeps `PROTO` clear and the rest of the script disciplined: the discipline rules out each
access that would set `PROTO` (R70, R203), and only a write of `CMD` starts a command. -/
theorem StepEffect.disciplined {s t : State} (h : StepEffect s t) (hp : s.proto = false)
    (hd : Disciplined s.params s.busy s.script) :
    t.proto = false ∧ Disciplined t.params t.busy t.script := by
  cases h with
  | csrRead _ _ _ hs => exact ⟨hp, hd.after_csrRead hs⟩
  | csrIgnored _ _ _ _ hs hr => exact ⟨hp, hd.after_csrWrite hs (by omega)⟩
  | ctrl _ _ _ hs | width _ _ _ hs | height _ _ _ hs | len _ _ _ hs => exact ⟨hp, hd.after_csrWrite hs (by decide)⟩
  | status _ _ _ hs => exact ⟨by simp [hp], hd.after_csrWrite hs (by decide)⟩
  | writeDropped _ _ _ _ hs hr hm => exact absurd (hd.not_pending hs hr) (by simp [hm])
  | illegalWord _ _ _ _ hs | issueRejected _ _ _ _ hs => exact ⟨hp, (hd.after_command hs).mono fun _ => rfl⟩
  | issueAccepted _ _ _ hs => split <;> exact ⟨hp, hd.after_command hs⟩
  | pixRead _ _ _ hs => exact ⟨hp, (hd.pixRead hs).2.2⟩
  | pixWrite _ _ _ _ hs => exact ⟨hp, (hd.pixWrite hs).2.2⟩
  | pixReadDropped _ _ _ hs hn =>
    obtain ⟨hb, hq, -⟩ := hd.pixRead hs
    exact absurd ⟨(busy_false s).1 hb, hq⟩ hn
  | pixWriteDropped _ _ _ _ hs hn =>
    obtain ⟨hb, hq, -⟩ := hd.pixWrite hs
    exact absurd ⟨(busy_false s).1 hb, hq⟩ hn
  | waitOver _ _ hs hm => exact ⟨hp, (hd.after_wait hs).mono (by simp [hm])⟩
  | completion => exact ⟨hp, hd.mono (by simp)⟩
  | reset => exact ⟨rfl, hd.mono (by simp)⟩
  | hostDone | waitBusy | engineIdle | pixel => exact ⟨hp, hd⟩

end Sys2Proof.Machine
end

section
/-! SUPPORT. What one step of a command leaves alone, and that it reads the colour bytes of the image only
(R71, R114, R123). -/

namespace Sys2Proof.Machine

/-! ### The frame -/

/-- A pixel store changes no alpha byte (R71). -/
theorem read_putRgb_alpha (m : Memory) (w x y : Nat) (c : Rgb) (x' y' : Nat) :
    (putRgb m w x y c).read (pixelAddr w x' y' 3) = m.read (pixelAddr w x' y' 3) :=
  read_putRgb_other m c (alpha_outside w x' y' x y)

/-- A store at a pixel of the image changes no byte at or above `4*W*H` (R114). -/
theorem read_putRgb_above (m : Memory) {w h x y a : Nat} (hx : x < w) (hy : y < h) (c : Rgb) (ha : imageBytes w h ≤ a) :
    (putRgb m w x y c).read a = m.read a :=
  read_putRgb_other m c (.inr (Nat.lt_of_lt_of_le (pixelAddr_lt hx hy (by decide)) ha))

/-- The issue leaves PM, the geometry, `CTRL`, `PROTO`, the parameters and the host's side (R110). -/
theorem issue_frame (i : Instr) (s : State) :
    (issue i s).pm = s.pm ∧ (issue i s).width = s.width ∧ (issue i s).height = s.height ∧ (issue i s).len = s.len ∧
      (issue i s).ie = s.ie ∧ (issue i s).proto = s.proto ∧ (issue i s).params = s.params ∧
      (issue i s).script = s.script ∧ (issue i s).position = s.position ∧ (issue i s).reads = s.reads ∧
      (issue i s).turns = s.turns := by
  rcases issue_cases i s with ⟨e, -, h⟩ | ⟨-, h⟩ <;> rw [h]
  · exact ⟨rfl, rfl, rfl, rfl, rfl, rfl, rfl, rfl, rfl, rfl, rfl⟩
  · split <;> exact ⟨rfl, rfl, rfl, rfl, rfl, rfl, rfl, rfl, rfl, rfl, rfl⟩

/-! ### The colour bytes of an image -/

/-- Two memories hold the same colour bytes in a `w` by `h` image. -/
def ColourAgrees (w h : Nat) (m n : Memory) : Prop :=
  ∀ x y ch, x < w → y < h → ch < 3 → m.read (pixelAddr w x y ch) = n.read (pixelAddr w x y ch)

variable {w h : Nat} {m n src src' : Memory}

theorem ColourAgrees.rgbAt_eq (hc : ColourAgrees w h m n) {x y : Nat} (hx : x < w) (hy : y < h) :
    rgbAt m w x y = rgbAt n w x y := by
  simp only [rgbAt, hc x y 0 hx hy (by decide), hc x y 1 hx hy (by decide), hc x y 2 hx hy (by decide)]

/-- The kernel sum of sharpen reads colour bytes of pixels of the image only (R153). -/
theorem ColourAgrees.sharpenByte_eq (hc : ColourAgrees w h m n) (t : Tie) (x y : Nat) {ch : Nat} (hch : ch < 3) :
    sharpenByte t m w h x y ch = sharpenByte t n w h x y ch := by
  have hsum : sharpenSum m w h x y ch = sharpenSum n w h x y ch := by
    unfold sharpenSum
    refine congrArg List.sum (List.map_congr_left fun tap htap => ?_)
    obtain ⟨hx, hy⟩ := mem_kernelTaps htap
    rw [hc tap.x tap.y ch hx hy hch]
  rw [sharpenByte, sharpenByte, hsum]

/-- At an interior pixel blur reads colour bytes of the image only (R155). -/
theorem ColourAgrees.blurByte_eq (hc : ColourAgrees w h m n) (t : Tie) {x y ch : Nat}
    (hs : inScan .blur w h y x = true) (hch : ch < 3) : blurByte t m w x y ch = blurByte t n w x y ch := by
  obtain ⟨hx1, hx2, hy1, hy2⟩ := inScan_interior.1 hs
  have hsum : blurSum m w x y ch = blurSum n w x y ch := by
    rw [blurSum, blurSum, hc (x - 1) y ch (by omega) (by omega) hch, hc (x + 1) y ch (by omega) (by omega) hch,
      hc x (y - 1) ch (by omega) (by omega) hch, hc x (y + 1) ch (by omega) (by omega) hch]
  rw [blurByte, blurByte, hsum]

/-- The colour a command stores depends on the colour bytes of the two images only (R123). -/
theorem ColourAgrees.pixelColour_eq (hsrc : ColourAgrees w h src src') (hc : ColourAgrees w h m n) (t : Tie) {i : Instr}
    {y x : Nat} (hs : inScan i w h y x = true) : pixelColour t i w h src m y x = pixelColour t i w h src' n y x := by
  obtain ⟨hx, hy⟩ := inScan_image hs
  cases i with
  | sharpen =>
    simp only [pixelColour, hsrc.sharpenByte_eq t x y (show 0 < 3 by decide),
      hsrc.sharpenByte_eq t x y (show 1 < 3 by decide), hsrc.sharpenByte_eq t x y (show 2 < 3 by decide)]
  | blur =>
    simp only [pixelColour, hc.blurByte_eq t hs (show 0 < 3 by decide), hc.blurByte_eq t hs (show 1 < 3 by decide),
      hc.blurByte_eq t hs (show 2 < 3 by decide)]
  | _ => simp only [pixelColour, hc.rgbAt_eq hx hy]

/-- Storing the same colour keeps the agreement. -/
theorem ColourAgrees.putRgb (hc : ColourAgrees w h m n) (hm : m.wf) (hn : n.wf) (x y : Nat) (c : Rgb) :
    ColourAgrees w h (putRgb m w x y c) (putRgb n w x y c) := by
  intro x' y' ch hx hy hch
  rw [read_putRgb hm, read_putRgb hn, hc x' y' ch hx hy hch]

end Sys2Proof.Machine
end

section
/-! SUPPORT. Mapping an engine elsewhere commutes with everything a step does: each operation is said to answer the
mapped result (R60). -/

namespace Sys2Proof.Machine

variable (s : State) (c b : Nat)

/-! ### Commands -/

@[simp] theorem memRead_mappedAt : memRead (s.mappedAt c b) = memRead s := rfl
@[simp] theorem snapRead_mappedAt : snapRead (s.mappedAt c b) = snapRead s := rfl

theorem colourOf_mappedAt (t : Tie) (i : Instr) (x y : Nat) :
    colourOf t i x y (s.mappedAt c b) = colourOf t i x y s := by
  cases i <;> rfl

theorem memWrite_mappedAt (a : Nat) (v : Byte) :
    memWrite (s.mappedAt c b) a v = (memWrite s a v).map (State.mappedAt c b) := by
  unfold memWrite
  rw [mappedAt_pixmemBytes]
  split <;> rfl

theorem storeRgb_mappedAt (x y : Nat) (col : Rgb) :
    storeRgb (s.mappedAt c b) x y col = (storeRgb s x y col).map (State.mappedAt c b) := by
  simp only [storeRgb, memWrite_mappedAt, mappedAt_w]
  cases memWrite s (pixelAddr s.w x y 0) col.r with
  | error _ => rfl
  | ok s1 =>
    simp only [Except.map, bind, Except.bind, memWrite_mappedAt]
    cases memWrite s1 (pixelAddr s.w x y 1) col.g with
    | error _ => rfl
    | ok s2 => exact memWrite_mappedAt s2 c b (pixelAddr s.w x y 2) col.b

theorem pixelStep_mappedAt (t : Tie) (i : Instr) (y x : Nat) :
    pixelStep i (colourOf t i) y x (s.mappedAt c b) = (pixelStep i (colourOf t i) y x s).map (State.mappedAt c b) := by
  simp only [pixelStep, colourOf_mappedAt, storeRgb_mappedAt, mappedAt_w, mappedAt_h]
  cases colourOf t i x y s with
  | error _ => rfl
  | ok col =>
    simp only [bind, Except.bind]
    cases storeRgb s x y col <;> rfl

theorem toOutcome_map (f : State → State) (r : Except Fault State) : toOutcome (r.map f) = mapNext f (toOutcome r) := by
  cases r <;> rfl

theorem engineStep_mappedAt (t : Tie) (i : Instr) :
    engineStep i (colourOf t i) (s.mappedAt c b) = mapNext (State.mappedAt c b) (engineStep i (colourOf t i) s) := by
  unfold engineStep
  rw [mappedAt_cur]
  cases s.cur with
  | fin => rfl
  | pix y x =>
    simp only [mappedAt_w, mappedAt_h, pixelStep_mappedAt, toOutcome_map]
    split <;> rfl

theorem issue_mappedAt (i : Instr) : issue i (s.mappedAt c b) = (issue i s).mappedAt c b := by
  have he : issueError i (beginIssue (encode i) (s.mappedAt c b)) = issueError i (beginIssue (encode i) s) := rfl
  unfold issue
  simp only [he]
  cases issueError i (beginIssue (encode i) s) with
  | some e => rfl
  | none => cases usesKernel i <;> rfl

theorem exec_mappedAt (i : Instr) : exec i (s.mappedAt c b) = mapNext (State.mappedAt c b) (exec i s) := by
  rw [exec_eq, exec_eq, mappedAt_tie]
  unfold commandStep
  rw [mappedAt_mode]
  cases s.mode with
  | idle => exact congrArg Host.Outcome.next (issue_mappedAt s c b i)
  | busy => exact engineStep_mappedAt s c b s.params.tie i

/-! ### The agents -/

theorem engineTurn_mappedAt : engineTurn (s.mappedAt c b) = mapNext (State.mappedAt c b) (engineTurn s) := by
  unfold engineTurn
  rw [mappedAt_mode, mappedAt_cmd, mappedAt_cur]
  cases s.mode with
  | idle => rfl
  | busy =>
    cases decodeKind s.cmd with
    | ok i => exact exec_mappedAt s c b i
    | error _ => cases s.cur <;> rfl

theorem ownedWrite_mappedAt (t : State) :
    ownedWrite (t.mappedAt c b) (s.mappedAt c b) = (ownedWrite t s).mappedAt c b := by
  unfold ownedWrite
  rw [mappedAt_mode]
  cases s.mode <;> rfl

theorem writeCmd_mappedAt (v : Word) : writeCmd v (s.mappedAt c b) = mapNext (State.mappedAt c b) (writeCmd v s) := by
  unfold writeCmd
  rw [mappedAt_mode]
  cases s.mode with
  | busy => rfl
  | idle =>
    cases decode v with
    | ok i => exact exec_mappedAt s c b i
    | error _ => rfl

theorem csrWrite_mappedAt (n : Nat) (v : Word) :
    csrWrite n v (s.mappedAt c b) = mapNext (State.mappedAt c b) (csrWrite n v s) := by
  unfold csrWrite
  split
  · rfl
  · rfl
  · exact congrArg Host.Outcome.next (ownedWrite_mappedAt s c b { s with width := v })
  · exact congrArg Host.Outcome.next (ownedWrite_mappedAt s c b { s with height := v })
  · exact congrArg Host.Outcome.next (ownedWrite_mappedAt s c b { s with len := v })
  · exact writeCmd_mappedAt s c b v
  · rfl

theorem pixReadState_mappedAt (p : Nat) : pixReadState p (s.mappedAt c b) = (pixReadState p s).mappedAt c b := by
  have hp : pixPerformed p (s.mappedAt c b) = pixPerformed p s := rfl
  unfold pixReadState
  rw [hp]
  split <;> rfl

theorem pixWrite_mappedAt (p : Nat) (v : Word) : pixWrite p v (s.mappedAt c b) = (pixWrite p v s).mappedAt c b := by
  have hp : pixPerformed p (s.mappedAt c b) = pixPerformed p s := rfl
  unfold pixWrite
  rw [hp]
  split <;> rfl

theorem hostStep_mappedAt : hostStep (s.mappedAt c b) = mapNext (State.mappedAt c b) (hostStep s) := by
  unfold hostStep
  rw [mappedAt_script]
  cases s.script with
  | nil => rfl
  | cons stmt rest =>
    cases stmt with
    | csrRead n => rfl
    | csrWrite n v => exact csrWrite_mappedAt (takeStmt rest s) c b n v
    | pixRead p =>
      exact congrArg (fun t => Host.Outcome.next (receive (pixValue p s) t)) (pixReadState_mappedAt (takeStmt rest s) c b p)
    | pixWrite p v => exact congrArg Host.Outcome.next (pixWrite_mappedAt (takeStmt rest s) c b p v)
    | wait =>
      have hw : statusWord (s.mappedAt c b) = statusWord s := rfl
      simp only [hw]
      split <;> rfl

/-- A step of the engine mapped elsewhere, by the agent whose turn it is. -/
theorem step_mappedAt : step (s.mappedAt c b) = mapNext (State.mappedAt c b) (step s) := by
  unfold step
  rw [mappedAt_nextTurn]
  cases nextTurn s with
  | host => exact hostStep_mappedAt (takeTurn s) c b
  | engine => exact engineTurn_mappedAt (takeTurn s) c b
  | reset pm snap => rfl

end Sys2Proof.Machine
end

section
/-! The statements of spec/20_memory.md: the host port, its interlock, the frames of a command's step and the address
map. -/

namespace Sys2Proof.Machine

/-- Settles O23. -/
theorem disciplinedHostNeverSetsProto : Obligations.DisciplinedHostNeverSetsProto :=
  fun _ _ hstep hp hd => (step_effect hstep).disciplined hp hd

/-- Settles O11: CSR by CSR, the dropped writes of a busy engine together. -/
theorem csrWritesActOnRegisters : Obligations.CsrWritesActOnRegisters := by
  intro s n v rest hn hs
  rw [step_csrWrite hn hs]
  refine ⟨fun h => csrWrite_ignored v _ h, ?ctrl, ?status, ?width, ?height, ?len, ?command, ?illegal,
    fun h5 h8 hm => csrWrite_busy (s := afterTake rest s) hm v ⟨h5, h8⟩⟩
  case ctrl =>
    rintro rfl
    rfl
  case status =>
    rintro rfl
    have hcode : (if s.err && v.getLsbD 2 then 0 else s.errCode) =
        if s.err = true ∧ v.getLsbD 2 = true then 0 else s.errCode := by simp only [Bool.and_eq_true]
    exact congrArg (fun code => Host.Outcome.next { ackStatus v (afterTake rest s) with errCode := code }) hcode
  case width | height | len =>
    rintro rfl hm
    exact congrArg Host.Outcome.next (ownedWrite_idle (s := afterTake rest s) hm _)
  case command =>
    rintro rfl hm i rfl
    exact writeCmd_idle (s := afterTake rest s) hm (decode_encode i)
  case illegal =>
    rintro rfl hm hv
    exact writeCmd_illegal (s := afterTake rest s) hm hv

/-- Settles O12. -/
theorem pixReadReturnsPixelWord : Obligations.PixReadReturnsPixelWord := by
  intro s p rest hn hs
  rw [step_pixRead hn hs]
  constructor
  · intro hm hp
    refine ⟨s.pm.readWord (4 * p), ?_, s.pm.extractLsb'_readWord (4 * p) (show 0 < 4 by decide),
      s.pm.extractLsb'_readWord (4 * p) (show 1 < 4 by decide), s.pm.extractLsb'_readWord (4 * p) (show 2 < 4 by decide),
      s.pm.extractLsb'_readWord (4 * p) (show 3 < 4 by decide)⟩
    rw [pixValue, pixReadState, if_pos (pixPerformed_of_idle hm hp),
      if_pos (pixPerformed_of_idle (s := afterTake rest s) hm hp)]
    rfl
  · intro h
    rw [pixValue, pixReadState, pixPerformed_dropped h, pixPerformed_dropped (s := afterTake rest s) h]
    rfl

/-- Settles O13. -/
theorem pixWriteStoresPixelWord : Obligations.PixWriteStoresPixelWord := by
  intro s p v rest hn hs
  rw [step_pixWrite hn hs, pixWrite]
  constructor
  · intro hwf hm hp
    rw [if_pos (pixPerformed_of_idle (s := afterTake rest s) hm hp)]
    exact ⟨_, rfl, rfl, Memory.read_writeWord_same hwf (4 * p) v (show 0 < 4 by decide),
      Memory.read_writeWord_same hwf (4 * p) v (show 1 < 4 by decide),
      Memory.read_writeWord_same hwf (4 * p) v (show 2 < 4 by decide),
      Memory.read_writeWord_same hwf (4 * p) v (show 3 < 4 by decide),
      fun a ha => Memory.read_writeWord_other ha s.pm v⟩
  · intro h
    rw [pixPerformed_dropped (s := afterTake rest s) h]
    rfl

/-- Settles O44: case by case on what a command's step can be. -/
theorem commandStepFrame : Obligations.CommandStepFrame := by
  intro i s t h
  rcases exec_next_cases h with ⟨hm, rfl⟩ | ⟨hm, hc, rfl⟩ | ⟨hm, y, x, c, hc, hs, -, rfl⟩
  · obtain ⟨hpm, hregs⟩ := issue_frame i s
    exact ⟨fun _ _ => by rw [hpm], fun _ _ => by rw [hpm], hregs, fun _ => hpm,
      fun hb => absurd (hm.symm.trans hb) (by decide)⟩
  · exact ⟨fun _ _ => rfl, fun _ _ => rfl, ⟨rfl, rfl, rfl, rfl, rfl, rfl, rfl, rfl, rfl, rfl⟩, fun _ => rfl,
      fun _ => ⟨rfl, rfl, rfl, rfl, rfl, fun _ _ _ _ _ => rfl⟩⟩
  · obtain ⟨hx, hy⟩ := inScan_image hs
    refine ⟨read_putRgb_alpha s.pm s.w x y c, fun a ha => read_putRgb_above s.pm hx hy c ha,
      ⟨rfl, rfl, rfl, rfl, rfl, rfl, rfl, rfl, rfl, rfl⟩, fun hi => absurd (hi.symm.trans hm) (by decide),
      fun _ => ⟨rfl, rfl, rfl, rfl, rfl, fun y' x' hc' a ha => ?_⟩⟩
    obtain ⟨rfl, rfl⟩ := Cursor.pix.inj (hc.symm.trans hc')
    exact read_putRgb_other s.pm c ha

/-- Settles O45: the colour stored is the same, because it is computed from the colour bytes of the image. -/
theorem alphaNeverInfluencesColour : Obligations.AlphaNeverInfluencesColour := by
  intro i s t pm snap hm hstep hwf hwf' hfit hagree
  have hpm : ColourAgrees s.w s.h pm s.pm := fun x y ch hx hy hch => (hagree x y ch hx hy hch).1
  have hsnap : ColourAgrees s.w s.h snap s.snap := fun x y ch hx hy hch => (hagree x y ch hx hy hch).2
  rcases exec_next_cases hstep with ⟨hi, -⟩ | ⟨-, hc, rfl⟩ | ⟨-, y, x, -, hc, hs, -, -⟩
  · exact absurd (hi.symm.trans hm) (by decide)
  · exact ⟨_, exec_fin (s := { s with pm := pm, snap := snap }) hm hc, rfl, hpm⟩
  · have ht := Host.Outcome.next.inj (hstep.symm.trans (exec_pix hm hc hs hfit))
    subst ht
    refine ⟨_, exec_pix (s := { s with pm := pm, snap := snap }) hm hc hs hfit, rfl, ?_⟩
    have hcol := hsnap.pixelColour_eq hpm s.params.tie hs
    intro x' y' ch hx hy hch
    exact (congrArg (fun c => (putRgb pm s.w x y c).read (pixelAddr s.w x' y' ch)) hcol).trans
      (hpm.putRgb hwf' hwf x y _ x' y' ch hx hy hch)

/-- Settles O58. -/
theorem addressMapHasNoEffect : Obligations.AddressMapHasNoEffect := step_mappedAt

/-- Settles O10: the words field by field. -/
theorem csrReadsReturnRegisters : Obligations.CsrReadsReturnRegisters := by
  refine ⟨fun s => ⟨rfl, ?caps, rfl, ctrlWord_eq s, ⟨statusWord_busy s, statusWord_done s, statusWord_err s,
    statusWord_proto s, statusWord_reserved_low s, statusWord_errCode s, statusWord_reserved_high s⟩,
    rfl, rfl, rfl, rfl, fun n hn => csrValue_reserved s hn⟩, fun s n rest hn hs => step_csrRead hn hs⟩
  case caps =>
    show capsWord s.params.tie = _
    cases s.params.tie <;> decide

/-- Settles O46. -/
theorem enginesAreIndependent : Obligations.EnginesAreIndependent := by
  intro e p q h
  rcases platformStep_next_cases h with ⟨hnone, rfl⟩ | ⟨s, t, hs, ht, rfl⟩
  · exact ⟨fun _ _ => rfl, rfl, fun s hs => absurd (hnone.symm.trans hs) (by simp)⟩
  · have hlt : e < p.engines.length := (List.getElem?_eq_some_iff.1 hs).1
    refine ⟨fun j hj => ?_, p.nEngines_setEngine e t, fun s' hs' => ⟨t, ?_, ?_⟩⟩
    · rw [Platform.engines_setEngine, List.getElem?_set_ne hj.symm]
    · rw [← Option.some.inj (hs.symm.trans hs'), ht]
    · rw [Platform.engines_setEngine, List.getElem?_set_self hlt]

end Sys2Proof.Machine
end

section
/-! SUPPORT. The decoder over all 2^32 words: which words are command words, and by which field any other word is
rejected (spec/30_encoding.md R90, R93). -/

namespace Sys2Proof

theorem decode_ok_iff {w : Word} {i : Instr} : decode w = .ok i ↔ w = encode i := by
  constructor
  · exact decode_ok
  · rintro rfl
    exact decode_encode i

/-- Placing a byte below a bit vector multiplies its value by 256. -/
theorem toNat_append_byte {n : Nat} (x : BitVec n) (y : Byte) : (x ++ y).toNat = 256 * x.toNat + y.toNat := by
  rw [BitVec.toNat_append, ← Nat.shiftLeft_add_eq_or_of_lt y.isLt, Nat.shiftLeft_eq, Nat.mul_comm]

/-- The codes are below 11 (R92). -/
theorem kindCode_lt (i : Instr) : (kindCode i).toNat < 11 := by
  cases i <;> decide

/-- A command word is its code as a number: the field `ZERO` adds nothing (R90). -/
theorem encode_toNat (i : Instr) : (encode i).toNat = (kindCode i).toNat := by
  simp [encode, toNat_append_byte]

theorem kindField_toNat (w : Word) : (kindField w).toNat = w.toNat % 256 := by
  simp [kindField, BitVec.extractLsb'_toNat]

theorem zeroField_toNat (w : Word) : (zeroField w).toNat = w.toNat / 256 := by
  have hw : w.toNat < 4294967296 := w.isLt
  rw [zeroField, BitVec.extractLsb'_toNat, Nat.shiftRight_eq_div_pow]
  omega

theorem zeroField_eq_zero_iff (w : Word) : zeroField w = 0 ↔ w.toNat / 256 = 0 := by
  rw [← BitVec.toNat_inj, zeroField_toNat]
  rfl

theorem ne_encode_of_le {w : Word} (h : 11 ≤ w.toNat) (i : Instr) : w ≠ encode i := by
  rintro rfl
  have hi := kindCode_lt i
  rw [encode_toNat] at h
  omega

/-- A word that is no command word is rejected by its field `ZERO` if that is not zero, else by its field `KIND` (R93). -/
theorem decode_of_ne_encode {w : Word} (h : ∀ i, w ≠ encode i) :
    decode w = if zeroField w = 0 then .error .unknownKind else .error .upperBitsSet := by
  cases hm : matchRow w opcodeRows with
  | some i => exact absurd (matchRow_encode hm) (h i)
  | none => rw [decode, hm]

theorem decode_upperBitsSet {w : Word} (h : w.toNat / 256 ≠ 0) : decode w = .error .upperBitsSet := by
  rw [decode_of_ne_encode (ne_encode_of_le (by omega)), if_neg (mt (zeroField_eq_zero_iff w).1 h)]

theorem decode_unknownKind {w : Word} (hz : w.toNat / 256 = 0) (hk : 11 ≤ w.toNat % 256) :
    decode w = .error .unknownKind := by
  rw [decode_of_ne_encode (ne_encode_of_le (by omega)), if_pos ((zeroField_eq_zero_iff w).2 hz)]

/-- The reading of the field `KIND` alone gives the kind whose code stands there (R111). -/
theorem decodeKind_ok_iff {w : Word} {i : Instr} : decodeKind w = .ok i ↔ kindField w = kindCode i := by
  rw [decodeKind, decode_ok_iff]
  exact BitVec.append_right_inj 0

end Sys2Proof
end

section
/-! SUPPORT. The pseudo-instructions of a host script that are more than one write of a given word: `wait` and `pixel`
(spec/30_encoding.md R97). -/

namespace Sys2Proof.Machine

/-- `wait` reads `STATUS`, and stays the next statement exactly while the engine is BUSY. -/
theorem step_wait {s : State} {rest : List HostStmt} (hn : nextTurn s = .host) (hs : s.script = .wait :: rest) :
    step s = if s.busy then .next (receive (csrValue 4 s) (takeTurn s))
      else .next (receive (csrValue 4 s) (afterTake rest s)) := by
  have hs' : (takeTurn s).script = .wait :: rest := hs
  rw [step_host hn, hostStep, hs']
  simp only [statusWord_busy]
  rfl

/-- The pixel word has R in bits 7:0, then G, B and A (R62). -/
theorem pixelWord_toNat (r g b a : Byte) :
    (pixelWord r g b a).toNat = r.toNat + 256 * g.toNat + 65536 * b.toNat + 16777216 * a.toNat := by
  simp only [pixelWord, toNat_append_byte]
  omega

end Sys2Proof.Machine
end

section
/-! The statements of spec/30_encoding.md: the command words, the decoder and the pseudo-instructions. -/

namespace Sys2Proof.Machine

/-- Settles O2: a word is rejected because it is no command word, by the field `ZERO` first. -/
theorem decodeAcceptsExactlyCommandWords : Obligations.DecodeAcceptsExactlyCommandWords := by
  refine ⟨fun _ _ => decode_ok_iff, fun _ => decode_upperBitsSet, fun _ => decode_unknownKind, fun w i => ?_⟩
  rw [decodeKind_ok_iff, ← BitVec.toNat_inj, kindField_toNat]

/-- Settles O1: each word of the table is the encoder's word of its kind. -/
theorem commandWordsDecode : Obligations.CommandWordsDecode :=
  ⟨⟨decode_encode .invert, rfl⟩, ⟨decode_encode .blackAndWhite, rfl⟩, ⟨decode_encode .sepia, rfl⟩,
    ⟨decode_encode .brightness, rfl⟩, ⟨decode_encode .contrast, rfl⟩, ⟨decode_encode .threshold, rfl⟩,
    ⟨decode_encode .hueRotate, rfl⟩, ⟨decode_encode .saturate, rfl⟩, ⟨decode_encode .colorize, rfl⟩,
    ⟨decode_encode .sharpen, rfl⟩, ⟨decode_encode .blur, rfl⟩, fun _ _ => decode_ok⟩

/-- Settles O14: `wait` by the `STATUS` bit it reads, `pixel` by the value of its word. -/
theorem pseudoInstructionsExpand : Obligations.PseudoInstructionsExpand :=
  ⟨fun _ => rfl,
    fun s _ hn hs => ⟨fun hm => (step_wait hn hs).trans (if_pos ((busy_eq s).2 hm)),
      fun hm => (step_wait hn hs).trans (if_neg (by simp [hm]))⟩,
    fun _ => rfl, fun _ _ hsize => if_pos hsize, fun _ r g b a => ⟨pixelWord r g b a, rfl, pixelWord_toNat r g b a⟩, rfl⟩

end Sys2Proof.Machine
end

section
/-! SUPPORT. Where rounding ties and where it does not, and the two ends of the byte stored
(spec/40_apply_and_clamp.md R116 to R118). -/

namespace Sys2Proof.Machine

/-- At an exact half the quotient is the lower neighbour and the remainder is half the divisor. -/
theorem ediv_emod_of_half {n d q : Int} (hd : 0 < d) (h : 2 * n = (2 * q + 1) * d) : n / d = q ∧ 2 * (n % d) = d := by
  have hexpand : (2 * q + 1) * d = 2 * (d * q) + d := by ring
  obtain ⟨hq, hr⟩ : n / d = q ∧ n % d = n - d * q :=
    (Int.ediv_emod_unique hd).2 ⟨by ring, by omega, by omega⟩
  exact ⟨hq, by omega⟩

/-- The even rule gives the even one of the two neighbours. -/
theorem roundTie_even_half {n d q : Int} (hd : 0 < d) (h : 2 * n = (2 * q + 1) * d) :
    roundTie .even n d = if q % 2 = 0 then q else q + 1 := by
  obtain ⟨hq, hr⟩ := ediv_emod_of_half hd h
  simp [roundTie_eq_emod, hq, hr]

theorem roundTie_up_half {n d q : Int} (hd : 0 < d) (h : 2 * n = (2 * q + 1) * d) : roundTie .up n d = q + 1 := by
  obtain ⟨hq, hr⟩ := ediv_emod_of_half hd h
  simp [roundTie_eq_emod, hq, hr]

theorem roundTie_away_half {n d q : Int} (hd : 0 < d) (h : 2 * n = (2 * q + 1) * d) :
    roundTie .away n d = if 0 ≤ n then q + 1 else q := by
  obtain ⟨hq, hr⟩ := ediv_emod_of_half hd h
  simp [roundTie_eq_emod, hq, hr]

/-- Of a number that is not negative, up is away from zero. -/
theorem roundTie_up_away {n : Int} (hn : 0 ≤ n) (d : Int) : roundTie .up n d = roundTie .away n d := by
  simp [roundTie_eq_emod, hn]

/-- Where there is no tie the byte stored does not depend on the tie rule. -/
theorem sat8_no_tie (t u : Tie) {n d : Int} (h : 2 * (n % d) ≠ d) : sat8 t n d = sat8 u n d :=
  congrArg toByte (roundTie_no_tie t u n d h)

/-- An odd denominator has no exact half. -/
theorem sat8_odd (t u : Tie) (n : Int) {d : Int} (hd : d % 2 = 1) : sat8 t n d = sat8 u n d :=
  sat8_no_tie t u (by omega)

theorem roundTie_nonpos (t : Tie) {n d : Int} (hd : 0 < d) (hn : n ≤ 0) : roundTie t n d ≤ 0 := by
  obtain ⟨-, hup⟩ := roundTie_near t n hd
  by_contra hpos
  have hge : 1 * d ≤ roundTie t n d * d := Int.mul_le_mul_of_nonneg_right (by omega) hd.le
  omega

/-- Beyond 254.5 the rounded value is at least 255. -/
theorem roundTie_ge_255 (t : Tie) {n d : Int} (hd : 0 < d) (hn : 509 * d < 2 * n) : 255 ≤ roundTie t n d := by
  obtain ⟨hlow, -⟩ := roundTie_near t n hd
  by_contra hlt
  have hle : roundTie t n d * d ≤ 254 * d := Int.mul_le_mul_of_nonneg_right (by omega) hd.le
  omega

theorem toByte_of_nonpos {v : Int} (h : v ≤ 0) : toByte v = 0 :=
  chan_inj (by rw [chan_toByte, clamp255]; show max 0 (min 255 v) = 0; omega)

theorem toByte_of_ge_255 {v : Int} (h : 255 ≤ v) : toByte v = 255 :=
  chan_inj (by rw [chan_toByte, clamp255]; show max 0 (min 255 v) = 255; omega)

/-! ### The tie rule in the filters -/

/-- One function of the lane on each lane. -/
theorem perLane_congr {f g : Byte → Byte} (h : ∀ c, f c = g c) (p : Rgb) : perLane f p = perLane g p :=
  congrArg (perLane · p) (funext h)

/-- The only tie of hueRotate is that of an odd red lane over 2, where green is 0 (R137). -/
theorem filterHueRotate_no_tie (t u : Tie) {p : Rgb} (h : 1 ≤ p.g.toNat ∨ p.r.toNat % 2 = 0) :
    filterHueRotate t p = filterHueRotate u p := by
  unfold filterHueRotate
  by_cases hg : 1 ≤ p.g.toNat
  · simp only [if_pos hg]
  · have hr : chan p.r % 2 = 0 := by have := h.resolve_left hg; unfold chan; omega
    simp only [if_neg hg, sat8_no_tie t u (n := chan p.r) (d := 2) (by omega)]

/-- An even lane and an even tint have no tie over 2 (R139). -/
theorem sat8_even_half (t u : Tie) {c : Byte} {k : Int} (hc : c.toNat % 2 = 0) (hk : k % 2 = 0) :
    sat8 t (chan c + k) 2 = sat8 u (chan c + k) 2 :=
  sat8_no_tie t u (by unfold chan; omega)

theorem filterColorize_no_tie (t u : Tie) {p : Rgb} (hr : p.r.toNat % 2 = 0) (hg : p.g.toNat % 2 = 0)
    (hb : p.b.toNat % 2 = 0) : filterColorize t p = filterColorize u p := by
  simp only [filterColorize, sat8_even_half t u hr (show Rom.tint.r % 2 = 0 by decide),
    sat8_even_half t u hg (show Rom.tint.g % 2 = 0 by decide),
    sat8_even_half t u hb (show Rom.tint.b % 2 = 0 by decide)]

end Sys2Proof.Machine
end

section
/-! SUPPORT. From the issue of a command on a valid image to its completion: what the issue leaves, and that a running
command always has a next step (spec/40_apply_and_clamp.md R110 to R113). -/

namespace Sys2Proof.Machine

/-! ### The two commands with a rule of their own -/

/-- Only blur scans the interior alone (R37). -/
theorem scansInterior_eq (i : Instr) : scansInterior i = decide (i = .blur) := by cases i <;> rfl

/-- Only sharpen holds a kernel (R171). -/
theorem usesKernel_eq (i : Instr) : usesKernel i = decide (i = .sharpen) := by cases i <;> rfl

theorem startCursor_eq (i : Instr) (w h : Nat) :
    startCursor i w h = if i = .blur then (if 3 ≤ w ∧ 3 ≤ h then .pix 1 1 else .fin) else .pix 0 0 := by
  simp only [startCursor, scansInterior_eq, decide_eq_true_eq]

theorem stepCount_eq (i : Instr) (w h : Nat) :
    stepCount i w h = if i = .blur then (w - 2) * (h - 2) + 1 else w * h + 1 := by
  simp only [stepCount, scansInterior_eq, decide_eq_true_eq]

/-! ### The issue -/

/-- SNAP after a successful issue: sharpen captures the image, every other command leaves SNAP (R39, R110). -/
def snapAfterIssue (i : Instr) (s : State) : Memory :=
  if i = .sharpen then Memory.copyBelow (imageBytes s.w s.h) s.pm s.snap else s.snap

/-- The whole effect of the issue of a command on a valid image (R110). -/
theorem issue_accepted (i : Instr) {s : State} (hg : s.GeometryOk) :
    issue i s = { s with
      cmd := encode i, done := false, err := false, errCode := 0, snap := snapAfterIssue i s,
      cur := startCursor i s.w s.h, mode := .busy } := by
  have hnone : issueError i (beginIssue (encode i) s) = none :=
    (issueError_none_iff i (beginIssue (encode i) s)).2 ⟨hg.widthPos, hg.heightPos, hg.lengthOk, hg.fits⟩
  rcases issue_cases i s with ⟨e, he, -⟩ | ⟨-, h⟩
  · exact absurd (hnone.symm.trans he) (by simp)
  · rw [h, usesKernel_eq, snapAfterIssue]
    by_cases hi : i = .sharpen
    · simp only [hi, decide_true, if_true]; rfl
    · simp only [hi, decide_false, Bool.false_eq_true, if_false]; rfl

theorem read_snapAfterIssue (i : Instr) (s : State) (a : Nat) :
    (snapAfterIssue i s).read a = if i = .sharpen ∧ a < imageBytes s.w s.h then s.pm.read a else s.snap.read a := by
  unfold snapAfterIssue
  by_cases hi : i = .sharpen
  · simp only [hi, if_true, true_and, Memory.read_copyBelow]
  · simp only [hi, if_false, false_and]

/-- The command the issue starts runs on the image it was issued on. -/
theorem running_issue (i : Instr) {s : State} (hg : s.GeometryOk) : (issue i s).Running i := by
  rw [issue_accepted i hg]
  exact ⟨rfl, hg.widthPos, hg.heightPos, hg.lengthOk, hg.fits, startCursor_ok i hg.widthPos hg.heightPos⟩

theorem busy_issue (i : Instr) {s : State} (hg : s.GeometryOk) : (issue i s).mode = .busy := by
  rw [issue_accepted i hg]

/-- The issue puts the whole scan before the cursor (R37). -/
theorem scanRest_issue (i : Instr) {s : State} (hg : s.GeometryOk) :
    scanRest i (issue i s).w (issue i s).h (issue i s).cur = scanOrder i s.w s.h := by
  rw [issue_accepted i hg]
  exact scanRest_start hg.widthPos hg.heightPos

/-! ### The command on the snapshot -/

/-- The snapshot captured for an image holds its colour bytes (R39). -/
theorem colourAgrees_copyBelow (w h : Nat) (src dst : Memory) :
    ColourAgrees w h (Memory.copyBelow (imageBytes w h) src dst) src := by
  intro x y ch hx hy hch
  rw [Memory.read_copyBelow, if_pos (pixelAddr_lt hx hy (by omega))]

/-- Only sharpen reads the original image beside the image as it stands (R154). -/
theorem pixelColour_src_congr (t : Tie) {i : Instr} {w h : Nat} {src src' : Memory}
    (hsrc : i = .sharpen → ColourAgrees w h src src') (m : Memory) (y x : Nat) :
    pixelColour t i w h src m y x = pixelColour t i w h src' m y x := by
  cases i with
  | sharpen =>
    have hc := hsrc rfl
    simp only [pixelColour, hc.sharpenByte_eq t x y (show 0 < 3 by decide),
      hc.sharpenByte_eq t x y (show 1 < 3 by decide), hc.sharpenByte_eq t x y (show 2 < 3 by decide)]
  | _ => rfl

theorem applyAt_src_congr (t : Tie) {i : Instr} {w h : Nat} {src src' : Memory}
    (hsrc : i = .sharpen → ColourAgrees w h src src') (m : Memory) (ps : List (Nat × Nat)) :
    applyAt t i w h src m ps = applyAt t i w h src' m ps := by
  induction ps generalizing m with
  | nil => rfl
  | cons p ps ih => rw [applyAt, applyAt, pixelColour_src_congr t hsrc, ih]

/-- A scan over the state the issue leaves computes `Apply` (R112). -/
theorem applyAt_snapAfterIssue (t : Tie) (i : Instr) (s : State) :
    applyAt t i s.w s.h (snapAfterIssue i s) s.pm (scanOrder i s.w s.h) = applyCommand t i s.w s.h s.pm := by
  refine applyAt_src_congr t (fun hi => ?_) s.pm _
  rw [snapAfterIssue, if_pos hi]
  exact colourAgrees_copyBelow s.w s.h s.pm s.snap

/-- `Apply` changes no byte at or above `4*W*H` (R112). -/
theorem read_applyCommand_above (t : Tie) (i : Instr) {w h a : Nat} (m : Memory) (ha : imageBytes w h ≤ a) :
    (applyCommand t i w h m).read a = m.read a := by
  refine applyAt_read_other t i w h m m _ (fun p hp => .inr ?_)
  obtain ⟨hx, hy⟩ := inScan_image (mem_scanOrder.1 hp)
  exact Nat.lt_of_lt_of_le (pixelAddr_lt hx hy (by decide)) ha

/-! ### A whole command -/

/-- The issue and the engine steps of a command leave `Apply` in PM (R112). -/
theorem execTimes_command (i : Instr) {s : State} (hm : s.mode = .idle) (hg : s.GeometryOk) :
    execTimes i (1 + stepCount i s.w s.h) s = .next { s with
      pm := applyCommand s.params.tie i s.w s.h s.pm, snap := snapAfterIssue i s, cmd := encode i,
      done := true, err := false, errCode := 0, mode := .idle, cur := .fin } := by
  have hrun := running_issue i hg
  rw [Nat.add_comm 1, execTimes_one_next (exec_idle hm), ← scanOrder_length, ← applyAt_snapAfterIssue,
    execTimes_scan i _ (issue i s) (busy_issue i hg) hrun.cursor hrun.fits (scanRest_issue i hg), issue_accepted i hg]
  rfl

/-- After the issue and before the completion step the engine is BUSY (R111). -/
theorem execTimes_command_busy (i : Instr) {s : State} {n : Nat} (hm : s.mode = .idle) (hg : s.GeometryOk)
    (hn : n < stepCount i s.w s.h) : ∃ t, execTimes i (1 + n) s = .next t ∧ t.mode = .busy := by
  have hrun := running_issue i hg
  rw [← scanOrder_length] at hn
  rw [Nat.add_comm 1, execTimes_one_next (exec_idle hm)]
  exact execTimes_scan_busy i _ (issue i s) n (busy_issue i hg) hrun.cursor hrun.fits (scanRest_issue i hg)
    (Nat.le_of_lt_succ hn)

/-! ### The steps of a running command -/

variable {i : Instr} {s : State}

theorem State.Running.takeTurn (h : s.Running i) : (takeTurn s).Running i :=
  ⟨h.command, h.widthPos, h.heightPos, h.lengthOk, h.fits, h.cursor⟩

/-- An engine turn of a running command is exec of it (R111). -/
theorem State.Running.engineTurn_eq (h : s.Running i) (hm : s.mode = .busy) : engineTurn s = exec i s :=
  engineTurn_busy hm (by rw [h.command, decodeKind_encode])

/-- No step of a running command can fail (R111). -/
theorem State.Running.exec_next (h : s.Running i) (hm : s.mode = .busy) : ∃ t, exec i s = .next t := by
  have hcur := h.cursor
  cases hc : s.cur with
  | fin => exact ⟨_, exec_fin hm hc⟩
  | pix y x => exact ⟨_, exec_pix hm hc (by rwa [hc] at hcur) h.fits⟩

/-- An engine turn answers a next state when any command in `CMD` passed its checks. -/
theorem engineTurn_next (h : s.mode = .busy → ∃ i, s.Running i) : ∃ t, engineTurn s = .next t := by
  cases hm : s.mode with
  | idle => exact ⟨s, engineTurn_idle hm⟩
  | busy =>
    obtain ⟨i, hi⟩ := h hm
    rw [hi.engineTurn_eq hm]
    exact hi.exec_next hm

end Sys2Proof.Machine
end

section
/-! SUPPORT. A running command under any schedule without a reset: every step of the machine keeps the image the command
will leave and brings its end nearer (spec/40_apply_and_clamp.md R111, R112, spec/70_reset_and_hazards.md R212). -/

namespace Sys2Proof.Machine

/-! ### Runs -/

theorem coreRun_succ {M : Host.Core} {s t : M.State} (h : M.step s = .next t) (n : Nat) :
    M.run (n + 1) s = M.run n t := by
  rw [Host.Core.run, h]

/-- A run that answers a state goes on from it. -/
theorem coreRun_add {M : Host.Core} {s t : M.State} {m : Nat} (h : M.run m s = .next t) (n : Nat) :
    M.run (m + n) s = M.run n t := by
  induction m generalizing s with
  | zero =>
    cases h
    rw [Nat.zero_add]
  | succ m ih =>
    rw [Nat.add_right_comm]
    rw [Host.Core.run] at h ⊢
    cases hs : M.step s with
    | next u =>
      rw [hs] at h
      exact ih h
    | fault | refused =>
      rw [hs] at h
      cases h

theorem run_succ {s t : State} (h : step s = .next t) (n : Nat) : run (n + 1) s = run n t :=
  coreRun_succ h n

theorem run_add {s t : State} {m : Nat} (h : run m s = .next t) (n : Nat) : run (m + n) s = run n t :=
  coreRun_add h n

/-! ### The schedule -/

/-- The schedule holds no reset (R213). -/
def State.NoReset (s : State) : Prop := ∀ pm snap, Turn.reset pm snap ∉ s.turns

variable {i : Instr} {s t : State}

/-- Every step takes one turn off the schedule. -/
theorem StepEffect.turns_eq (h : StepEffect s t) : t.turns = s.turns.tail := by
  cases h with
  | issueAccepted => split <;> rfl
  | _ => rfl

theorem State.NoReset.step (h : s.NoReset) (hstep : step s = .next t) : t.NoReset := by
  intro pm snap hmem
  rw [(step_effect hstep).turns_eq] at hmem
  exact h pm snap (List.mem_of_mem_tail hmem)

theorem State.NoReset.nextTurn_ne (h : s.NoReset) (pm snap : Memory) : nextTurn s ≠ .reset pm snap :=
  fun hn => h pm snap (nextTurn_reset_mem hn)

/-- While BUSY the host has a turn only where the schedule names it (log 5). -/
theorem turns_ne_nil_of_host (hm : s.mode = .busy) (hn : nextTurn s = .host) : s.turns ≠ [] := by
  intro hnil
  simp [nextTurn, hnil, State.busy, hm] at hn

/-- The schedule is replaced. -/
def setTurns (ts : List Turn) (s : State) : State := { s with turns := ts }

/-- An idle machine whose schedule holds no reset comes to a step of the host, with nothing else changed. -/
theorem run_idle_to_host (hm : s.mode = .idle) (hnr : s.NoReset) :
    ∃ n ts, run n s = .next (setTurns ts s) ∧ nextTurn (setTurns ts s) = .host ∧ (setTurns ts s).NoReset := by
  generalize hl : s.turns = l
  induction l generalizing s with
  | nil => exact ⟨0, s.turns, rfl, by simp [nextTurn, setTurns, hl, State.busy, hm], hnr⟩
  | cons turn l ih =>
    have hn : nextTurn s = turn := by simp [nextTurn, hl]
    cases turn with
    | host => exact ⟨0, s.turns, rfl, hn, hnr⟩
    | reset pm snap => exact absurd hn (hnr.nextTurn_ne pm snap)
    | engine =>
      have hstep : step s = .next (takeTurn s) := by rw [step_engine hn, engineTurn_idle (s := takeTurn s) hm]
      obtain ⟨n, ts, hrun, hhost, hts⟩ := ih (s := takeTurn s) hm (hnr.step hstep) (by rw [takeTurn_turns, hl]; rfl)
      exact ⟨n + 1, ts, (run_succ hstep n).trans hrun, hhost, hts⟩

/-! ### What a running command will leave -/

/-- PM as it will be when command `i` has processed the positions still before the cursor. -/
def finalPm (i : Instr) (s : State) : Memory :=
  applyAt s.params.tie i s.w s.h s.snap s.pm (scanRest i s.w s.h s.cur)

/-- The engine steps command `i` has still to take, the completion step included (R111). -/
def stepsLeft (i : Instr) (s : State) : Nat := (scanRest i s.w s.h s.cur).length + 1

theorem finalPm_issue (i : Instr) (hg : s.GeometryOk) :
    finalPm i (issue i s) = applyCommand s.params.tie i s.w s.h s.pm := by
  rw [finalPm, scanRest_issue i hg, issue_accepted i hg]
  exact applyAt_snapAfterIssue s.params.tie i s

theorem stepsLeft_issue (i : Instr) (hg : s.GeometryOk) : stepsLeft i (issue i s) = stepCount i s.w s.h := by
  rw [stepsLeft, scanRest_issue i hg, scanOrder_length]

/-- Two states have the same parameters and the same image geometry. -/
structure SameImage (s t : State) : Prop where
  params : t.params = s.params
  width : t.width = s.width
  height : t.height = s.height
  len : t.len = s.len

theorem SameImage.trans {u : State} (h : SameImage s t) (h' : SameImage t u) : SameImage s u :=
  ⟨h'.params.trans h.params, h'.width.trans h.width, h'.height.trans h.height, h'.len.trans h.len⟩

theorem SameImage.w_eq (h : SameImage s t) : t.w = s.w := congrArg BitVec.toNat h.width

theorem SameImage.h_eq (h : SameImage s t) : t.h = s.h := congrArg BitVec.toNat h.height

theorem SameImage.geometryOk (h : SameImage s t) (hg : s.GeometryOk) : t.GeometryOk := by
  obtain ⟨hw, hh, hl, hf⟩ := hg
  constructor <;> simpa only [h.w_eq, h.h_eq, h.len, h.params]

/-- Command `i` still runs after a step, on the same image, with the same PM to leave and its end nearer. -/
structure Continues (i : Instr) (s t : State) : Prop where
  busy : t.mode = .busy
  running : t.Running i
  image : SameImage s t
  cmd : t.cmd = s.cmd
  final : finalPm i t = finalPm i s
  nearer : t.turns.length + stepsLeft i t < s.turns.length + stepsLeft i s

/-- Command `i`, running in `s`, has ended in `t` (R113). -/
structure Completed (i : Instr) (s t : State) : Prop where
  idle : t.mode = .idle
  done : t.done = true
  image : SameImage s t
  cmd : t.cmd = s.cmd
  pm : t.pm = finalPm i s

theorem Completed.of_continues {u : State} (h : Continues i s t) (h' : Completed i t u) : Completed i s u :=
  ⟨h'.idle, h'.done, h.image.trans h'.image, h'.cmd.trans h.cmd, h'.pm.trans h.final⟩

/-- Whatever the host does in its turn, the running command continues: the schedule has become shorter (R70). -/
theorem continues_of_host (hr : s.Running i) (hm : s.mode = .busy) (hn : nextTurn s = .host)
    (hstep : step s = .next t) : Continues i s t := by
  have he := step_effect hstep
  obtain ⟨hpm, hsnap, hwidth, hheight, hlen, hcmd, hmode, hcur⟩ := he.host_busy_frame hn hm
  have himg : SameImage s t := ⟨he.params_eq, hwidth, hheight, hlen⟩
  have hshorter : t.turns.length < s.turns.length := by
    have hpos := List.length_pos_iff.2 (turns_ne_nil_of_host hm hn)
    rw [he.turns_eq, List.length_tail]
    omega
  obtain ⟨hc, hw, hh, hl, hf, hcurOk⟩ := hr
  refine ⟨hmode, ⟨hcmd.trans hc, ?_, ?_, ?_, ?_, ?_⟩, himg, hcmd, ?_, ?_⟩
  · rwa [himg.w_eq]
  · rwa [himg.h_eq]
  · rwa [himg.w_eq, himg.h_eq, hlen]
  · rwa [himg.w_eq, himg.h_eq, himg.params]
  · rwa [himg.w_eq, himg.h_eq, hcur]
  · simp only [finalPm, himg.params, himg.w_eq, himg.h_eq, hsnap, hpm, hcur]
  · simp only [stepsLeft, himg.w_eq, himg.h_eq, hcur]
    omega

/-- An engine turn with the cursor at its end completes the command (R113). -/
theorem completed_of_fin (i : Instr) (hm : s.mode = .busy) (hc : s.cur = .fin) :
    ∃ t, exec i (takeTurn s) = .next t ∧ Completed i s t := by
  refine ⟨_, exec_fin (s := takeTurn s) hm hc, rfl, rfl, ⟨rfl, rfl, rfl, rfl⟩, rfl, ?_⟩
  rw [finalPm, hc]
  rfl

/-- An engine turn at a pixel processes the first of the positions still before the cursor (R111). -/
theorem continues_of_pix (hr : s.Running i) (hm : s.mode = .busy) {y x : Nat} (hc : s.cur = .pix y x) :
    ∃ t, exec i (takeTurn s) = .next t ∧ Continues i s t := by
  obtain ⟨hcmd, hw, hh, hl, hf, hcur⟩ := hr
  rw [hc] at hcur
  refine ⟨_, exec_pix (s := takeTurn s) hm hc hcur hf, hm, ⟨hcmd, hw, hh, hl, hf, nextCursor_ok hcur⟩,
    ⟨rfl, rfl, rfl, rfl⟩, rfl, ?_, ?_⟩
  · rw [finalPm, finalPm, hc, scanRest_next hcur]
    rfl
  · rw [stepsLeft, stepsLeft, hc, scanRest_next hcur, List.length_cons]
    exact Nat.add_lt_add_of_le_of_lt (List.tail_sublist s.turns).length_le (Nat.lt_succ_self _)

/-- One step of the machine while a command runs: the command continues or completes. -/
theorem running_step (hr : s.Running i) (hm : s.mode = .busy) (hnr : s.NoReset) :
    ∃ t, step s = .next t ∧ (Continues i s t ∨ Completed i s t) := by
  cases hn : nextTurn s with
  | host =>
    obtain ⟨t, ht⟩ := hostStep_next (takeTurn s)
    have hstep := (step_host hn).trans ht
    exact ⟨t, hstep, .inl (continues_of_host hr hm hn hstep)⟩
  | engine =>
    have hexec : step s = exec i (takeTurn s) := by rw [step_engine hn]; exact hr.takeTurn.engineTurn_eq hm
    cases hc : s.cur with
    | fin =>
      obtain ⟨t, ht, hdone⟩ := completed_of_fin i hm hc
      exact ⟨t, hexec.trans ht, .inr hdone⟩
    | pix y x =>
      obtain ⟨t, ht, hcont⟩ := continues_of_pix hr hm hc
      exact ⟨t, hexec.trans ht, .inl hcont⟩
  | reset pm snap => exact absurd hn (hnr.nextTurn_ne pm snap)

/-- What every step of a busy engine short of a reset keeps. -/
def BusyStepsKeep (I : State → Prop) : Prop :=
  ∀ s t, I s → s.mode = .busy → s.NoReset → step s = .next t → I t

/-- A running command completes within the turns of the schedule and the engine steps it has left, whatever the host
does; any further property that the steps of a busy engine keep holds at its end. -/
theorem run_completes {I : State → Prop} (hI : BusyStepsKeep I) (hr : s.Running i) (hm : s.mode = .busy)
    (hnr : s.NoReset) (hs : I s) :
    ∃ n t, n ≤ s.turns.length + stepsLeft i s ∧ run n s = .next t ∧ Completed i s t ∧ t.NoReset ∧ I t := by
  induction hb : s.turns.length + stepsLeft i s using Nat.strong_induction_on generalizing s with
  | _ b ih =>
    obtain ⟨t, hstep, hcont | hdone⟩ := running_step hr hm hnr
    · have hnearer := hcont.nearer
      obtain ⟨n, u, hn, hrun, hu, hnr', hIu⟩ :=
        ih _ (hb ▸ hnearer) hcont.running hcont.busy (hnr.step hstep) (hI s t hs hm hnr hstep) rfl
      exact ⟨n + 1, u, by omega, (run_succ hstep n).trans hrun, .of_continues hcont hu, hnr', hIu⟩
    · have hleft : 0 < stepsLeft i s := Nat.succ_pos _
      exact ⟨1, t, by omega, run_succ hstep 0, hdone, hnr.step hstep, hI s t hs hm hnr hstep⟩

end Sys2Proof.Machine
end

section
/-! SUPPORT. The host script `apply NAME`, `wait` under any schedule without a reset (spec/30_encoding.md R97,
spec/70_reset_and_hazards.md R207). -/

namespace Sys2Proof.Machine

variable {i : Instr} {s t : State}

/-- The host's next statement is `wait`; its flag and record stand at given values. -/
structure State.Waiting (rest : List HostStmt) (proto : Bool) (rejected : List Rejection) (s : State) : Prop where
  script : s.script = .wait :: rest
  proto : s.proto = proto
  rejected : s.rejected = rejected

/-- A turn of the engine leaves the host's script, `PROTO` and the record of rejected issues. -/
theorem StepEffect.engine_frame (h : StepEffect s t) (hn : nextTurn s = .engine) :
    t.script = s.script ∧ t.proto = s.proto ∧ t.rejected = s.rejected := by
  cases h with
  | engineIdle | completion | pixel => exact ⟨rfl, rfl, rfl⟩
  | reset _ _ hn' => cases hn.symm.trans hn'
  | _ => exact absurd (hn.symm.trans ‹nextTurn s = .host›) (by decide)

/-- The host waits as long as the engine is BUSY (R97). -/
theorem waiting_kept (rest : List HostStmt) (proto : Bool) (rejected : List Rejection) :
    BusyStepsKeep (State.Waiting rest proto rejected) := by
  intro s t ⟨hscript, hproto, hrejected⟩ hm hnr hstep
  cases hn : nextTurn s with
  | host =>
    rw [step_wait hn hscript, if_pos ((busy_eq s).2 hm)] at hstep
    cases hstep
    exact ⟨hscript, hproto, hrejected⟩
  | engine =>
    obtain ⟨hs, hp, hr⟩ := (step_effect hstep).engine_frame hn
    exact ⟨hs.trans hscript, hp.trans hproto, hr.trans hrejected⟩
  | reset pm snap => exact absurd hn (hnr.nextTurn_ne pm snap)

/-- The script has come to `rest` after command `i` was applied to the image of `s`. -/
structure Applied (i : Instr) (rest : List HostStmt) (s t : State) : Prop where
  idle : t.mode = .idle
  done : t.done = true
  pm : t.pm = applyCommand s.params.tie i s.w s.h s.pm
  image : SameImage s t
  script : t.script = rest
  proto : t.proto = s.proto
  rejected : t.rejected = s.rejected
  noReset : t.NoReset

/-- The host's write of the command issues it and starts the wait. -/
theorem run_apply_issue {rest : List HostStmt} (hm : s.mode = .idle) (hg : s.GeometryOk) (hnr : s.NoReset)
    (hs : s.script = .csrWrite 8 (encode i) :: .wait :: rest) :
    ∃ n u, run n s = .next u ∧ u.mode = .busy ∧ u.Running i ∧ u.NoReset ∧ SameImage s u ∧
      finalPm i u = applyCommand s.params.tie i s.w s.h s.pm ∧ u.Waiting rest s.proto s.rejected := by
  obtain ⟨n, ts, hrun, hn, hts⟩ := run_idle_to_host hm hnr
  have hstep := step_writeCommand (s := setTurns ts s) hn hs hm (decode_encode i)
  rw [exec_idle (s := afterTake _ (setTurns ts s)) hm] at hstep
  have himg : SameImage s (afterTake (.wait :: rest) (setTurns ts s)) := ⟨rfl, rfl, rfl, rfl⟩
  have hg' := himg.geometryOk hg
  refine ⟨n + 1, _, (run_add hrun 1).trans (run_succ hstep 0), busy_issue i hg', running_issue i hg', hts.step hstep,
    ?image, finalPm_issue i hg', ?waiting⟩
  all_goals rw [issue_accepted i hg']
  case image => exact ⟨rfl, rfl, rfl, rfl⟩
  case waiting => exact ⟨rfl, rfl, rfl⟩

/-- Once the engine is IDLE the wait ends, with nothing of the engine changed (R97). -/
theorem run_wait_over {rest : List HostStmt} (hm : s.mode = .idle) (hnr : s.NoReset) (hs : s.script = .wait :: rest) :
    ∃ n t, run n s = .next t ∧ t.NoReset ∧ t.script = rest ∧ t.mode = .idle ∧ t.done = s.done ∧ t.pm = s.pm ∧
      SameImage s t ∧ t.proto = s.proto ∧ t.rejected = s.rejected := by
  obtain ⟨n, ts, hrun, hn, hts⟩ := run_idle_to_host hm hnr
  have hstep := step_wait (s := setTurns ts s) hn hs
  rw [if_neg (by simp [setTurns, hm])] at hstep
  exact ⟨n + 1, _, (run_add hrun 1).trans (run_succ hstep 0), hts.step hstep, rfl, hm, rfl, rfl, ⟨rfl, rfl, rfl, rfl⟩,
    rfl, rfl⟩

/-- `apply NAME`, `wait` applies the command to the image and moves the script on. -/
theorem run_apply_wait {rest : List HostStmt} (hm : s.mode = .idle) (hg : s.GeometryOk) (hnr : s.NoReset)
    (hs : s.script = .csrWrite 8 (encode i) :: .wait :: rest) : ∃ n t, run n s = .next t ∧ Applied i rest s t := by
  obtain ⟨n₁, u, hrun₁, hbusy, hrunning, hnr₁, himg₁, hfinal, hwait⟩ := run_apply_issue hm hg hnr hs
  obtain ⟨n₂, v, -, hrun₂, hdone, hnr₂, hwait₂⟩ :=
    run_completes (waiting_kept rest s.proto s.rejected) hrunning hbusy hnr₁ hwait
  obtain ⟨n₃, t, hrun₃, hnr₃, hscript, hidle, hd, hpm, himg₃, hproto, hrejected⟩ :=
    run_wait_over hdone.idle hnr₂ hwait₂.script
  exact ⟨n₁ + (n₂ + n₃), t, by rw [run_add hrun₁, run_add hrun₂, hrun₃], hidle, hd.trans hdone.done,
    hpm.trans (hdone.pm.trans hfinal), himg₁.trans (hdone.image.trans himg₃), hscript, hproto.trans hwait₂.proto,
    hrejected.trans hwait₂.rejected, hnr₃⟩

end Sys2Proof.Machine
end

section
/-! SUPPORT. The list of filters as the host reads it from CAPS (spec/40_apply_and_clamp.md R120). -/

namespace Sys2Proof.Machine

/-- The field `NFILT` of CAPS (R26). -/
theorem capsWord_nfilt (t : Tie) : (capsWord t).extractLsb' 0 8 = 11 := by cases t <;> decide

/-- The codes 0 to 10 name the eleven kinds in their order (R92), whatever `TIE` is. -/
theorem listFilters_capsWord (t : Tie) :
    listFilters (capsWord t) = [.invert, .blackAndWhite, .sepia, .brightness, .contrast, .threshold, .hueRotate,
      .saturate, .colorize, .sharpen, .blur] := by
  rw [listFilters, capsWord_nfilt]
  decide

end Sys2Proof.Machine
end

section
/-! The statements of spec/40_apply_and_clamp.md: the issue, the engine steps and the completion of a command, rounding
and clamping, whole commands. -/

namespace Sys2Proof.Machine

/-- Settles O7: agent by agent. -/
theorem stepsNeverFail : Obligations.StepsNeverFail := by
  intro s hs
  cases hn : nextTurn s with
  | host => rw [step_host hn]; exact hostStep_next _
  | engine =>
    rw [step_engine hn]
    exact engineTurn_next fun hm => (hs.running hm).imp fun _ hi => hi.takeTurn
  | reset pm snap => exact ⟨_, step_reset hn⟩

/-- Settles O24. -/
theorem acceptedIssueStartsEngine : Obligations.AcceptedIssueStartsEngine := by
  intro i s hm hg
  refine ⟨_, exec_idle hm, ?_⟩
  rw [issue_accepted i hg]
  exact ⟨rfl, startCursor_eq i s.w s.h, fun hi => if_neg hi, read_snapAfterIssue i s⟩

/-- Settles O43: the second part is the inversion of a step that clears `BUSY`. -/
theorem completionEndsCommand : Obligations.CompletionEndsCommand := by
  refine ⟨fun i s hm hc => exec_fin hm hc, fun s t hstep hm ht => ?_⟩
  rcases (step_effect hstep).busy_cleared hm ht with ⟨hn, hc, rfl⟩ | hreset
  · exact .inl ⟨hn, hc, rfl, rfl⟩
  · exact .inr hreset

/-- Settles O47. -/
theorem wholeCommandAppliesFilter : Obligations.WholeCommandAppliesFilter := by
  intro i s hm hg
  rw [← stepCount_eq]
  exact ⟨⟨_, execTimes_command i hm hg, rfl, fun a ha => read_applyCommand_above s.params.tie i s.pm ha⟩,
    fun n hn => execTimes_command_busy i hm hg hn⟩

/-- Settles O29: the ties are the exact halves, and the denominators 1, 3, 5 and 15 have none. -/
theorem roundIsNearestWithTieRule : Obligations.RoundIsNearestWithTieRule := by
  refine ⟨fun t n d hd => roundTie_near t n hd,
    fun q d hd n hn => ⟨?even, roundTie_up_half hd hn, roundTie_away_half hd hn⟩,
    fun n d hd => ⟨fun hn => roundTie_up_away hn d, sat8_up_away n hd⟩,
    fun t u p => ⟨perLane_congr (fun c => sat8_odd t u _ (by decide)) p, ?blackAndWhite,
      perLane_congr (fun c => sat8_odd t u _ (by decide)) p, perLane_congr (fun c => sat8_odd t u _ (by decide)) p,
      perLane_congr (fun c => sat8_odd t u _ (by decide)) p, filterHueRotate_no_tie t u, filterColorize_no_tie t u⟩,
    fun t u n hn => sat8_no_tie t u (by omega), fun t u m w x y ch h => sat8_no_tie t u (by omega),
    fun t u src w h x y ch => sat8_odd t u _ (by decide)⟩
  case even =>
    rw [roundTie_even_half hd hn]
    split <;> omega
  case blackAndWhite =>
    simp only [filterBlackAndWhite, sat8_odd t u (lumaSum p) (show Rom.avgDiv % 2 = 1 by decide)]

/-- Settles O30. -/
theorem storedByteIsRoundedThenClamped : Obligations.StoredByteIsRoundedThenClamped :=
  fun t n _ hd => ⟨toByte_toNat _, fun hn => toByte_of_nonpos (roundTie_nonpos t hd hn),
    fun hn => toByte_of_ge_255 (roundTie_ge_255 t hd hn), by rw [sat8_one]; exact toByte_toNat n⟩

/-- Settles O49: twice `apply NAME`, `wait`, the second time on the image the first has left. -/
theorem sequentialCommandsCompose : Obligations.SequentialCommandsCompose := by
  intro i j s hm hg hnr hs
  obtain ⟨n₁, u, hrun₁, hu⟩ := run_apply_wait (i := i) (rest := [.csrWrite 8 (encode j), .wait]) hm hg hnr hs
  obtain ⟨n₂, t, hrun₂, ht⟩ := run_apply_wait hu.idle (hu.image.geometryOk hg) hu.noReset hu.script
  refine ⟨n₁ + n₂, t, (run_add hrun₁ n₂).trans hrun₂, ⟨ht.script, ht.idle⟩, ht.proto.trans hu.proto,
    ht.rejected.trans hu.rejected, ht.done, ?_⟩
  rw [ht.pm, hu.pm, hu.image.params, hu.image.w_eq, hu.image.h_eq]

/-- Settles O15. -/
theorem listFiltersEnumeratesEleven : Obligations.ListFiltersEnumeratesEleven :=
  ⟨fun s => ⟨capsWord_nfilt s.params.tie, listFilters_capsWord s.params.tie,
    congrArg (List.map mnemonic) (listFilters_capsWord s.params.tie)⟩, fun _ _ hn hs => step_csrRead hn hs⟩

end Sys2Proof.Machine
end

section
/-! SUPPORT. A command's step at a pixel against the pure colour it stores, and what `Apply` of a point filter leaves at
every address of PM (spec/41_point_filters.md R130, R140). -/

namespace Sys2Proof.Machine

/-- The step at a pixel of the scan stores the pure colour there, with the frame of a pixel step (R111). -/
theorem exec_atPixel {i : Instr} {s : State} {y x : Nat} (hp : s.AtPixel i y x) :
    ∃ t, exec i s = .next t ∧ PixelFrame i s t y x ∧
      rgbAt t.pm s.w x y = pixelColour s.params.tie i s.w s.h s.snap s.pm y x :=
  ⟨_, exec_pix hp.busy hp.cursor hp.scan hp.fits, ⟨rfl, fun _ ha => read_putRgb_other s.pm _ ha⟩,
    rgbAt_putRgb hp.canonical s.w x y _⟩

variable {t : Tie} {i : Instr} {f : Rgb → Rgb} {w h x y : Nat}

/-- A point filter stores its function of the pixel's own lanes (R130). -/
theorem pixelColour_point (hf : pointFunction t i = some f) (w h : Nat) (src m : Memory) (y x : Nat) :
    pixelColour t i w h src m y x = f (rgbAt m w x y) := by
  cases i with
  | sharpen => cases hf
  | blur => cases hf
  | _ => obtain rfl := Option.some.inj hf; rfl

/-- A point filter scans the whole image (R37). -/
theorem inScan_point (hf : pointFunction t i = some f) (hx : x < w) (hy : y < h) : inScan i w h y x = true := by
  have hi : scansInterior i = false := by
    cases i with
    | blur => cases hf
    | _ => rfl
  simp [inScan, hi, hx, hy]

/-- Every step of a point filter is its function at the pixel. -/
theorem filterAt_of_pointFunction {f : Tie → Rgb → Rgb} (hf : ∀ t, pointFunction t i = some (f t)) : FilterAt i f := by
  intro s y x hp
  obtain ⟨t, hexec, hframe, hcolour⟩ := exec_atPixel hp
  exact ⟨t, hexec, hframe, hcolour.trans (pixelColour_point (hf s.params.tie) ..)⟩

/-! ### `Apply` of a point filter -/

/-- A pixel has been left alone when its turn comes, so the whole command maps it by the function (R130). -/
theorem rgbAt_applyCommand_point {p : Memory} (hp : p.wf) (hf : pointFunction t i = some f) (hx : x < w) (hy : y < h) :
    rgbAt (applyCommand t i w h p) w x y = f (rgbAt p w x y) := by
  obtain ⟨l₁, l₂, hsplit, hbefore, hafter⟩ := scanOrder_split (inScan_point hf hx hy)
  have hcol : ∀ q ∈ l₁ ++ (y, x) :: l₂, q.2 < w := fun q hq => scanOrder_column (hsplit ▸ hq)
  have hn₁ : (y, x) ∉ l₁ := fun hm => by have := hbefore _ hm; omega
  have hn₂ : (y, x) ∉ l₂ := fun hm => by have := hafter _ hm; omega
  have hsame : ∀ ch < 4, (applyAt t i w h p p l₁).read (pixelAddr w x y ch) = p.read (pixelAddr w x y ch) := fun ch hch =>
    applyAt_read_unvisited t i h p p hx hch (fun q hq => hcol q (by simp [hq])) hn₁
  rw [applyCommand, hsplit, rgbAt_applyAt hp hx (fun q hq => hcol q (by simp [hq])) hn₂, pixelColour_point hf]
  simp only [rgbAt, hsame 0 (by decide), hsame 1 (by decide), hsame 2 (by decide)]

/-- No command changes an alpha byte (R114). -/
theorem read_applyCommand_alpha (t : Tie) (i : Instr) (w h : Nat) (p : Memory) (x y : Nat) :
    (applyCommand t i w h p).read (pixelAddr w x y 3) = p.read (pixelAddr w x y 3) :=
  applyAt_read_other t i w h p p _ fun _ _ => alpha_outside w x y _ _

theorem applyCommand_wf (t : Tie) (i : Instr) (w h : Nat) {p : Memory} (hp : p.wf) : (applyCommand t i w h p).wf :=
  applyAt_wf hp _

/-! ### The bytes of an image -/

/-- Every byte of the image belongs to a pixel of the image (R61). -/
theorem exists_pixelAddr {a : Nat} (ha : a < imageBytes w h) :
    ∃ x y ch, x < w ∧ y < h ∧ ch < 4 ∧ a = pixelAddr w x y ch := by
  have hq : a / 4 < h * w := by
    have : imageBytes w h = 4 * (h * w) := by unfold imageBytes; ring
    omega
  have hw : 0 < w := Nat.pos_of_mul_pos_left (Nat.lt_of_le_of_lt (Nat.zero_le _) hq)
  refine ⟨a / 4 % w, a / 4 / w, a % 4, Nat.mod_lt _ hw, Nat.div_lt_of_lt_mul (by rwa [Nat.mul_comm]),
    Nat.mod_lt _ (by decide), ?_⟩
  rw [pixelAddr, Nat.mul_comm (a / 4 / w), Nat.div_add_mod, Nat.div_add_mod]

/-- Two canonical memories that agree in the colours and the alpha bytes of an image and above it are the same. -/
theorem Memory.ext_of_image {m n : Memory} (hm : m.wf) (hn : n.wf)
    (hcolour : ∀ x y, x < w → y < h → rgbAt m w x y = rgbAt n w x y)
    (halpha : ∀ x y, m.read (pixelAddr w x y 3) = n.read (pixelAddr w x y 3))
    (habove : ∀ a, imageBytes w h ≤ a → m.read a = n.read a) : m = n := by
  refine Memory.ext_of_read hm hn fun a => ?_
  rcases Nat.lt_or_ge a (imageBytes w h) with ha | ha
  · obtain ⟨x, y, ch, hx, hy, hch, rfl⟩ := exists_pixelAddr ha
    obtain ⟨hr, hg, hb⟩ := Rgb.mk.inj (hcolour x y hx hy)
    interval_cases ch
    · exact hr
    · exact hg
    · exact hb
    · exact halpha x y
  · exact habove a ha

end Sys2Proof.Machine
end

section
/-! SUPPORT. The byte `SAT8` stores as the clamp of a nearest integer, and the functions of the point filters in the
numbers of spec/41_point_filters.md R131 to R139. -/

namespace Sys2Proof.Machine

/-- The byte stored is the clamp of an integer that lies within a half of the quotient (R116, R118). -/
theorem sat8_nearest (t : Tie) (n : Int) {d : Int} (hd : 0 < d) :
    ∃ v : Int, ((sat8 t n d).toNat : Int) = max 0 (min 255 v) ∧ 2 * n - d ≤ 2 * (v * d) ∧ 2 * (v * d) ≤ 2 * n + d :=
  ⟨roundTie t n d, toByte_toNat _, roundTie_near t n hd⟩

/-- Invert never rounds or clamps (R131). -/
theorem sat8_complement (t : Tie) (c : Byte) : sat8 t (Rom.invMax - chan c) 1 = 255 - c := by
  have hc := chan_range c
  have hsub : chan (255 - c) = 255 - chan c := by
    unfold chan
    bv_omega
  refine chan_inj ?_
  rw [sat8_one, chan_toByte, hsub, clamp255, Rom.invMax]
  omega

theorem filterInvert_eq (t : Tie) (p : Rgb) : filterInvert t p = ⟨255 - p.r, 255 - p.g, 255 - p.b⟩ := by
  simp only [filterInvert, perLane, sat8_complement]

theorem filterInvert_involutive (t : Tie) (p : Rgb) : filterInvert t (filterInvert t p) = p := by
  simp only [filterInvert_eq, sub_sub_cancel]

/-- The lane function of contrast over the denominator 5 (R135). -/
theorem filterContrast_eq (t : Tie) (p : Rgb) :
    filterContrast t p =
      ⟨sat8 t (6 * p.r.toNat - 128) 5, sat8 t (6 * p.g.toNat - 128) 5, sat8 t (6 * p.b.toNat - 128) 5⟩ := by
  have hlane : ∀ c : Byte, Rom.factorNum * (chan c - Rom.contrMid) + Rom.factorDen * Rom.contrMid = 6 * c.toNat - 128 := by
    intro c
    simp only [Rom.factorNum, Rom.factorDen, Rom.contrMid, chan]
    ring
  simp only [filterContrast, perLane, hlane]
  rfl

/-- The average is compared exactly, as the sum against 450 (R136). -/
theorem filterThreshold_eq (p : Rgb) :
    filterThreshold p = if p.r.toNat + p.g.toNat + p.b.toNat < 450 then ⟨100, 100, 100⟩ else ⟨200, 200, 200⟩ := by
  have hsum : lumaSum p < Rom.avgDiv * Rom.thrCut ↔ p.r.toNat + p.g.toNat + p.b.toNat < 450 := by
    simp only [lumaSum, chan, Rom.avgDiv, Rom.thrCut]
    omega
  simp only [filterThreshold, hsum]
  split <;> rfl

/-! ### What the filters store -/

/-- Beyond 254.5 the byte stored is 255. -/
theorem sat8_saturated (t : Tie) {n d : Int} (hd : 0 < d) (hn : 509 * d < 2 * n) : sat8 t n d = 255 :=
  toByte_of_ge_255 (roundTie_ge_255 t hd hn)

/-- A lane times the denominator gives the lane back. -/
theorem sat8_exact (t : Tie) (c : Byte) {n d : Int} (hd : 0 < d) (hn : n = chan c * d) : sat8 t n d = c := by
  have hround : roundTie t n d = chan c := by
    rw [roundTie_eq_emod, hn, Int.mul_emod_left, Int.mul_ediv_cancel _ hd.ne']
    simp [hd]
  have hc := chan_range c
  refine chan_inj ?_
  rw [chan_sat8, hround, clamp255]
  omega

/-- The sum modulo 3 says which way the average is rounded (R132). -/
theorem filterBlackAndWhite_average (t : Tie) (p : Rgb) :
    let s := p.r.toNat + p.g.toNat + p.b.toNat
    let v := (filterBlackAndWhite t p).r.toNat
    (s % 3 = 0 → 3 * v = s) ∧ (s % 3 = 1 → 3 * v + 1 = s) ∧ (s % 3 = 2 → 3 * v = s + 1) := by
  intro s v
  obtain ⟨u, hu, hlow, hhigh⟩ := sat8_nearest t (lumaSum p) (show 0 < Rom.avgDiv by decide)
  have hv : (v : Int) = max 0 (min 255 u) := hu
  have hs : lumaSum p = s := by simp only [lumaSum, chan, s]; omega
  have hmax : s ≤ 765 := by have := p.r.isLt; have := p.g.isLt; have := p.b.isLt; omega
  rw [hs, Rom.avgDiv] at hlow hhigh
  clear_value s v
  omega

/-- The average of a grey pixel is its lane (R132). -/
theorem filterBlackAndWhite_grey (t : Tie) (c : Byte) : filterBlackAndWhite t ⟨c, c, c⟩ = ⟨c, c, c⟩ := by
  have hc : sat8 t (lumaSum ⟨c, c, c⟩) Rom.avgDiv = c :=
    sat8_exact t c (by decide) (by simp only [lumaSum, Rom.avgDiv]; ring)
  simp only [filterBlackAndWhite, hc]

/-- The red numerator of sepia as the spec writes it (R133). -/
theorem weighted_sepiaR (p : Rgb) :
    weighted Rom.sepiaR p = ((35 * p.r.toNat + 68 * p.g.toNat + 17 * p.b.toNat : Nat) : Int) := by
  simp [weighted, Rom.sepiaR, chan]

/-- The blue weights sum to 0.93 (R133). -/
theorem filterSepia_blue_le (t : Tie) (p : Rgb) : (filterSepia t p).b.toNat ≤ 237 := by
  obtain ⟨v, hv, -, hhigh⟩ := sat8_nearest t (weighted Rom.sepiaB p) (d := 100) (by decide)
  have hsum : weighted Rom.sepiaB p ≤ 93 * 255 := by
    have := chan_range p.r; have := chan_range p.g; have := chan_range p.b
    simp only [weighted, Rom.sepiaB]
    omega
  change (sat8 t (weighted Rom.sepiaB p) 100).toNat ≤ 237
  omega

/-- The numerator of a grey pixel is fifteen times its lane (R138). -/
theorem filterSaturate_grey (t : Tie) (c : Byte) : filterSaturate t ⟨c, c, c⟩ = ⟨c, c, c⟩ := by
  have hc : sat8 t (Rom.factorNum * Rom.avgDiv * chan c - lumaSum ⟨c, c, c⟩) (Rom.factorDen * Rom.avgDiv) = c :=
    sat8_exact t c (by decide) (by simp only [lumaSum, Rom.factorNum, Rom.factorDen, Rom.avgDiv]; ring)
  simp only [filterSaturate, perLane, hc]

/-- The average of a lane with the tint `2 * m` lies between `m` and `m + 128` (R139). -/
theorem sat8_tint_range (t : Tie) (c : Byte) {m : Nat} (hm : m ≤ 127) :
    m ≤ (sat8 t (chan c + 2 * m) 2).toNat ∧ (sat8 t (chan c + 2 * m) 2).toNat ≤ m + 128 := by
  obtain ⟨v, hv, hlow, hhigh⟩ := sat8_nearest t (chan c + 2 * m) (d := 2) (by decide)
  have hc := chan_range c
  omega

/-! ### The exact rotation -/

theorem isqrt_eq_sqrt (n : Nat) : isqrt n = Nat.sqrt n :=
  Nat.eq_sqrt.2 (isqrt_spec n)

/-- `isqrt(3*n*n)` is the floor of `n * sqrt 3` (R137). -/
theorem floorSqrt3_floor (b : Byte) :
    (floorSqrt3 b : ℝ) ≤ b.toNat * Real.sqrt 3 ∧ b.toNat * Real.sqrt 3 < (floorSqrt3 b : ℝ) + 1 := by
  have hcast : (floorSqrt3 b : ℝ) = Nat.sqrt (3 * b.toNat * b.toNat) := by
    rw [floorSqrt3, isqrt_eq_sqrt, Int.cast_natCast]
  have hroot : b.toNat * Real.sqrt 3 = Real.sqrt ((3 * b.toNat * b.toNat : ℕ) : ℝ) := by
    push_cast
    rw [mul_assoc, Real.sqrt_mul (by norm_num), Real.sqrt_mul_self (by positivity), mul_comm]
  rw [hcast, hroot]
  exact ⟨Real.nat_sqrt_le_real_sqrt, Real.real_sqrt_lt_nat_sqrt_succ⟩

/-- `n * sqrt 3` is irrational for `n >= 1`, so it is never its own floor (R137). -/
theorem floorSqrt3_lt {b : Byte} (hb : 1 ≤ b.toNat) : (floorSqrt3 b : ℝ) < b.toNat * Real.sqrt 3 := by
  have hirr : Irrational (b.toNat * Real.sqrt (3 : ℕ)) := Nat.prime_three.irrational_sqrt.natCast_mul (by omega)
  exact lt_of_le_of_ne (floorSqrt3_floor b).1 (hirr.ne_int (floorSqrt3 b)).symm

/-- With `q` the floor of `a`, `(q + k + 1) / 2` is a nearest integer to `(a + k) / 2`, and there is a tie only at
`a = q`. -/
theorem abs_half_sum_sub_le {q k : ℤ} {a : ℝ} (hlow : (q : ℝ) ≤ a) (hhigh : a < q + 1) :
    |(((q + k + 1) / 2 : ℤ) : ℝ) - (a + k) / 2| ≤ 1 / 2 ∧
      ((q : ℝ) < a → |(((q + k + 1) / 2 : ℤ) : ℝ) - (a + k) / 2| < 1 / 2) := by
  obtain ⟨v, hv⟩ : ∃ v, (q + k + 1) / 2 = v := ⟨_, rfl⟩
  have hge : (q : ℝ) + k ≤ 2 * v := by exact_mod_cast (show q + k ≤ 2 * v by omega)
  have hle : 2 * (v : ℝ) ≤ q + k + 1 := by exact_mod_cast (show 2 * v ≤ q + k + 1 by omega)
  rw [hv]
  exact ⟨abs_le.2 ⟨by linarith, by linarith⟩, fun hlt => abs_lt.2 ⟨by linarith, by linarith⟩⟩

/-- Adding an integer to `n * sqrt 3` and halving, rounded as `hueRotate` rounds it (R137). -/
theorem abs_rotated_sub_le (n : Byte) (k : ℤ) :
    |(((floorSqrt3 n + k + 1) / 2 : ℤ) : ℝ) - (n.toNat * Real.sqrt 3 + k) / 2| ≤ 1 / 2 ∧
      (1 ≤ n.toNat → |(((floorSqrt3 n + k + 1) / 2 : ℤ) : ℝ) - (n.toNat * Real.sqrt 3 + k) / 2| < 1 / 2) :=
  have hround := abs_half_sum_sub_le (k := k) (floorSqrt3_floor n).1 (floorSqrt3_floor n).2
  ⟨hround.1, fun hn => hround.2 (floorSqrt3_lt hn)⟩

/-- A value over 2, rounded, is within a half of it. -/
theorem abs_roundTie_half_sub_le (t : Tie) (n : ℤ) : |(roundTie t n 2 : ℝ) - n * (1 / 2)| ≤ 1 / 2 := by
  obtain ⟨hlow, hhigh⟩ := roundTie_near t n (d := 2) (by decide)
  have hlow' : 2 * (n : ℝ) - 2 ≤ 2 * (roundTie t n 2 * 2) := by exact_mod_cast hlow
  have hhigh' : 2 * ((roundTie t n 2 : ℝ) * 2) ≤ 2 * n + 2 := by exact_mod_cast hhigh
  exact abs_le.2 ⟨by linarith, by linarith⟩

end Sys2Proof.Machine
end

section
/-! The statements of spec/41_point_filters.md: the nine point filters at a pixel and over a whole image. -/

namespace Sys2Proof.Machine

/-- Settles O31. -/
theorem invertFiltersPixel : Obligations.InvertFiltersPixel :=
  ⟨rfl, filterAt_of_pointFunction fun t => congrArg some (funext (filterInvert_eq t)), filterInvert_involutive,
    fun t => filterInvert_eq t ⟨100, 150, 200⟩⟩

/-- Settles O32: a black-and-white pixel is grey. -/
theorem blackAndWhiteFiltersPixel : Obligations.BlackAndWhiteFiltersPixel :=
  ⟨rfl, filterAt_of_pointFunction fun _ => rfl, filterBlackAndWhite_average, fun t _ => filterBlackAndWhite_grey t _⟩

/-- Settles O33: red by its numerator, the examples for each tie rule. -/
theorem sepiaFiltersPixel : Obligations.SepiaFiltersPixel := by
  refine ⟨rfl, filterAt_of_pointFunction fun _ => rfl, fun t p => ⟨fun hn => ?saturated, fun hn => ?tie,
    filterSepia_blue_le t p⟩, fun t => ?examples, fun t => ⟨⟨255, 0, 0⟩, ?notIdempotent⟩⟩
  case saturated => exact sat8_saturated t (by decide) (by rw [weighted_sepiaR]; omega)
  case tie =>
    have hr : (filterSepia t p).r = sat8 t 25450 100 := by
      change sat8 t (weighted Rom.sepiaR p) 100 = _
      rw [weighted_sepiaR, hn, Nat.cast_ofNat]
    rw [hr]
    cases t <;> decide
  case examples => cases t <;> decide
  case notIdempotent => cases t <;> decide

/-- Settles O34. -/
theorem brightnessFiltersPixel : Obligations.BrightnessFiltersPixel := by
  refine ⟨rfl, filterAt_of_pointFunction fun _ => rfl, fun t c => ⟨fun hc => ?nearest, fun hc => ?saturated⟩,
    fun t => ?examples, fun t => ⟨⟨100, 0, 0⟩, ?notIdempotent⟩⟩
  case nearest =>
    obtain ⟨v, hv, hlow, hhigh⟩ := sat8_nearest t (6 * c.toNat) (d := 5) (by decide)
    omega
  case saturated => exact sat8_saturated t (by decide) (by omega)
  case examples => cases t <;> decide
  case notIdempotent => cases t <;> decide

/-- Settles O35: the numerator `6c - 128` is negative up to 21, and above `254.5 * 5` from 234 on. -/
theorem contrastFiltersPixel : Obligations.ContrastFiltersPixel := by
  refine ⟨rfl, filterAt_of_pointFunction fun t => congrArg some (funext (filterContrast_eq t)),
    fun t c => ⟨fun hc => ?zero, fun hc hc' => ?nearest, fun hc => ?saturated, fun hc hc' => ?pivot⟩, fun t => ?examples⟩
  case zero => exact toByte_of_nonpos (roundTie_nonpos t (by decide) (by omega))
  case saturated => exact sat8_saturated t (by decide) (by omega)
  case examples => cases t <;> decide
  all_goals obtain ⟨v, hv, hlow, hhigh⟩ := sat8_nearest t (6 * c.toNat - 128) (d := 5) (by decide)
  case nearest => omega
  case pivot => exact BitVec.eq_of_toNat_eq (by omega)

/-- Settles O36: 100 stays 100 and 200 stays 200. -/
theorem thresholdFiltersPixel : Obligations.ThresholdFiltersPixel := by
  have htwo : ∀ p, filterThreshold p = ⟨100, 100, 100⟩ ∨ filterThreshold p = ⟨200, 200, 200⟩ := fun p => by
    rw [filterThreshold_eq]
    exact ite_eq_or_eq _ _ _
  refine ⟨rfl, filterAt_of_pointFunction fun _ => congrArg some (funext filterThreshold_eq), htwo, fun p => ?_⟩
  rcases htwo p with h | h <;> rw [h] <;> decide

/-- Settles O37. -/
theorem hueRotateFiltersPixel : Obligations.HueRotateFiltersPixel := by
  refine ⟨rfl, filterAt_of_pointFunction fun _ => rfl, fun t => ?_⟩
  cases t <;> decide

/-- Settles O38: with `sqrt 3 / 2` and `1 / 2` over one denominator, both lanes are the rounded sums of
abs_rotated_sub_le, but for green where green is 0. -/
theorem hueRotateIsExactRotation : Obligations.HueRotateIsExactRotation := by
  intro t p r g
  refine ⟨⟨(floorSqrt3 p.r + -chan p.g + 1) / 2, toByte_toNat _, ?red⟩, ?green, rfl⟩
  case red =>
    have hexact : r * (Real.sqrt 3 / 2) - g * (1 / 2) = (r * Real.sqrt 3 + (-chan p.g : ℤ)) / 2 := by
      simp only [chan, g]; push_cast; ring
    rw [hexact]
    exact abs_rotated_sub_le p.r (-chan p.g)
  case green =>
    by_cases hg : 1 ≤ p.g.toNat
    · have hexact : r * (1 / 2) + g * (Real.sqrt 3 / 2) = (g * Real.sqrt 3 + chan p.r) / 2 := by
        simp only [chan, r]; push_cast; ring
      obtain ⟨hle, hlt⟩ := abs_rotated_sub_le p.g (chan p.r)
      rw [hexact]
      refine ⟨(floorSqrt3 p.g + chan p.r + 1) / 2, ?_, hle, hlt, fun h0 => by omega⟩
      simp only [filterHueRotate, if_pos hg, toByte_toNat, clamp255]
    · have hexact : r * (1 / 2) + g * (Real.sqrt 3 / 2) = chan p.r * (1 / 2) := by
        have h0 : p.g.toNat = 0 := by omega
        simp [chan, r, g, h0]
      rw [hexact]
      refine ⟨roundTie t (chan p.r) 2, ?_, abs_roundTie_half_sub_le t (chan p.r), fun h1 => absurd h1 hg, fun _ => rfl⟩
      simp only [filterHueRotate, if_neg hg, sat8, toByte_toNat, clamp255]

/-- Settles O39. -/
theorem saturateFiltersPixel : Obligations.SaturateFiltersPixel := by
  refine ⟨rfl, filterAt_of_pointFunction fun _ => rfl, filterSaturate_grey, fun t => ?_⟩
  cases t <;> decide

/-- Settles O40: the tints are twice 40, 25 and 60. -/
theorem colorizeFiltersPixel : Obligations.ColorizeFiltersPixel := by
  refine ⟨rfl, filterAt_of_pointFunction fun _ => rfl, fun t p => ?_, fun t => ?_⟩
  · obtain ⟨hr₁, hr₂⟩ := sat8_tint_range t p.r (m := 40) (by decide)
    obtain ⟨hg₁, hg₂⟩ := sat8_tint_range t p.g (m := 25) (by decide)
    obtain ⟨hb₁, hb₂⟩ := sat8_tint_range t p.b (m := 60) (by decide)
    exact ⟨hr₁, hr₂, hg₁, hg₂, hb₁, hb₂⟩
  · cases t <;> decide

/-- Settles O51. -/
theorem pointCommandMapsEveryPixel : Obligations.PointCommandMapsEveryPixel :=
  fun t i _ w h p hp hf => ⟨fun _ _ hx hy => rgbAt_applyCommand_point hp hf hx hy, read_applyCommand_alpha t i w h p,
    fun _ ha => read_applyCommand_above t i p ha⟩

/-- Settles O50: pixel by pixel invert undoes itself, and no other byte was changed. -/
theorem invertTwiceRestoresImage : Obligations.InvertTwiceRestoresImage := by
  intro t w h p hp
  have hq := applyCommand_wf t .invert w h hp
  refine Memory.ext_of_image (w := w) (h := h) (applyCommand_wf t .invert w h hq) hp (fun x y hx hy => ?_) (fun x y => ?_)
    (fun a ha => ?_)
  · rw [rgbAt_applyCommand_point hq rfl hx hy, rgbAt_applyCommand_point hp rfl hx hy, filterInvert_involutive]
  · rw [read_applyCommand_alpha, read_applyCommand_alpha]
  · rw [read_applyCommand_above t .invert _ ha, read_applyCommand_above t .invert p ha]

end Sys2Proof.Machine
end

section
/-! SUPPORT. The surviving terms of a kernel as the double sum of the spec, `Convolve` byte by byte, and the kernel of
sharpen (spec/42_convolution.md R151 to R154, R158). -/

namespace Sys2Proof.Machine

/-! ### Kernel sums -/

/-- The coordinate is used where both tests of R153 hold. -/
theorem elim_neighbour {β : Type} (base off half bound : Nat) (b : β) (g : Nat → β) :
    (neighbour base off half bound).elim b g =
      if half ≤ base + off ∧ base + off - half < bound then g (base + off - half) else b := by
  unfold neighbour
  split <;> rfl

section
variable {α M : Type} [AddCommMonoid M] (f : Tap α → M) (w h half x y : Nat)

/-- A sum over the surviving terms of a kernel row, weight by weight. -/
theorem sum_rowTaps (d : α) (yy kx : Nat) (ks : List α) :
    ((rowTaps w half x yy kx ks).map f).sum =
      ∑ j ∈ Finset.range ks.length, (neighbour x (kx + j) half w).elim 0 fun xx => f ⟨xx, yy, ks.getD j d⟩ := by
  induction ks generalizing kx with
  | nil => rfl
  | cons k ks ih =>
    have htail := ih (kx + 1)
    simp only [Nat.add_right_comm kx 1] at htail
    rw [List.length_cons, Finset.sum_range_succ', rowTaps]
    simp only [List.getD_cons_succ, List.getD_cons_zero, ← Nat.add_assoc, Nat.add_zero, ← htail]
    cases neighbour x kx half w with
    | none => exact (add_zero _).symm
    | some xx => exact add_comm _ _

/-- A sum over the surviving terms of a kernel, row by row. -/
theorem sum_kernelTaps (ky : Nat) (rows : List (List α)) :
    ((kernelTaps w h half x y ky rows).map f).sum =
      ∑ i ∈ Finset.range rows.length, (neighbour y (ky + i) half h).elim 0 fun yy =>
        ((rowTaps w half x yy 0 (rows.getD i [])).map f).sum := by
  induction rows generalizing ky with
  | nil => rfl
  | cons row rows ih =>
    have htail := ih (ky + 1)
    simp only [Nat.add_right_comm ky 1] at htail
    rw [List.length_cons, Finset.sum_range_succ', kernelTaps]
    simp only [List.getD_cons_succ, List.getD_cons_zero, ← Nat.add_assoc, Nat.add_zero, ← htail]
    cases neighbour y ky half h with
    | none => exact (add_zero _).symm
    | some yy =>
      simp only [List.map_append, List.sum_append]
      exact add_comm _ _

/-- Over a square kernel it is the double sum of R151. -/
theorem sum_kernelTaps_square (d : α) {k : List (List α)} (hk : ∀ row ∈ k, row.length = k.length) :
    ((kernelTaps w h half x y 0 k).map f).sum =
      ∑ ky ∈ Finset.range k.length, ∑ kx ∈ Finset.range k.length,
        if (half ≤ y + ky ∧ y + ky - half < h) ∧ (half ≤ x + kx ∧ x + kx - half < w) then
          f ⟨x + kx - half, y + ky - half, (k.getD ky []).getD kx d⟩
        else 0 := by
  rw [sum_kernelTaps]
  refine Finset.sum_congr rfl fun ky hky => ?_
  have hrow : (k.getD ky []).length = k.length := by
    rw [List.getD_eq_getElem _ _ (Finset.mem_range.1 hky)]
    exact hk _ (List.getElem_mem _)
  simp only [sum_rowTaps f w half x d, hrow, elim_neighbour, Nat.zero_add, ite_and]
  split_ifs <;> simp

end

/-- The accumulator of `Convolve` as a sum. -/
theorem convSum_eq (src : Memory) (w ch : Nat) (acc : Rat) (taps : List (Tap Rat)) :
    convSum src w ch acc taps =
      acc + (taps.map fun tap => ((src.read (pixelAddr w tap.x tap.y ch)).toNat : Rat) * tap.weight).sum := by
  induction taps generalizing acc with
  | nil => exact (add_zero acc).symm
  | cons tap taps ih => rw [convSum, ih, List.map_cons, List.sum_cons, add_assoc]

variable {t : Tie} {w h : Nat} {src : Memory} {k : Kernel}

/-- A colour byte of `Convolve` is `SAT8` of the sum the spec writes (R151). -/
theorem convByte_eq (hk : ∀ row ∈ k, row.length = k.length) (x y ch : Nat) :
    convByte t w h src k x y ch = sat8 t (kernelSum w h src k x y ch).num (kernelSum w h src k x y ch).den := by
  have hsum : convSum src w ch 0 (kernelTaps w h (k.length / 2) x y 0 k) = kernelSum w h src k x y ch := by
    rw [convSum_eq, zero_add, sum_kernelTaps_square _ w h _ x y 0 hk]
    rfl
  simp only [convByte, hsum]

/-! ### The bytes of `Convolve` -/

theorem kernelValid_iff {α : Type} {k : List (List α)} :
    kernelValid k = true ↔ k.length % 2 = 1 ∧ ∀ row ∈ k, row.length = k.length := by
  simp [kernelValid]

theorem convBytes_length (t : Tie) (w h : Nat) (src : Memory) (k : Kernel) (p n : Nat) :
    (convBytes t w h src k p n).length = 4 * n := by
  induction n generalizing p with
  | zero => rfl
  | succ n ih =>
    rw [convBytes, List.length_append, ih]
    simp only [convPixel, List.length_cons, List.length_nil]
    omega

/-- The four bytes of each output pixel stand in a row. -/
theorem convBytes_getD (t : Tie) (w h : Nat) (src : Memory) (k : Kernel) (p : Nat) {n q ch : Nat} (hq : q < n)
    (hch : ch < 4) : (convBytes t w h src k p n).getD (4 * q + ch) 0 = (convPixel t w h src k (p + q)).getD ch 0 := by
  have hlen (p : Nat) : (convPixel t w h src k p).length = 4 := rfl
  induction n generalizing p q with
  | zero => omega
  | succ n ih =>
    rw [convBytes]
    cases q with
    | zero => rw [List.getD_append _ _ _ _ (by rw [hlen]; omega), Nat.mul_zero, Nat.zero_add, Nat.add_zero]
    | succ q =>
      rw [List.getD_append_right _ _ _ _ (by rw [hlen]; omega), hlen, show 4 * (q + 1) + ch - 4 = 4 * q + ch by omega,
        ih (p + 1) (by omega), Nat.add_right_comm, Nat.add_assoc]

/-- The output of `Convolve` at a pixel of the image. -/
theorem convBytes_getD_pixelAddr {x y ch : Nat} (hx : x < w) (hy : y < h) (hch : ch < 4) :
    (convBytes t w h src k 0 (w * h)).getD (pixelAddr w x y ch) 0 =
      [convByte t w h src k x y 0, convByte t w h src k x y 1, convByte t w h src k x y 2,
        src.read (pixelAddr w x y 3)].getD ch 0 := by
  have hlt : y * w + x < w * h := by
    have := Nat.mul_le_mul_right w (Nat.succ_le_of_lt hy)
    rw [Nat.succ_mul, Nat.mul_comm h w] at this
    omega
  have hmod : (y * w + x) % w = x := by rw [Nat.mul_add_mod', Nat.mod_eq_of_lt hx]
  have hdiv : (y * w + x) / w = y := by
    rw [Nat.mul_comm, Nat.mul_add_div (by omega), Nat.div_eq_of_lt hx, Nat.add_zero]
  rw [pixelAddr, convBytes_getD t w h src k 0 hlt hch, Nat.zero_add, convPixel]
  simp only [hmod, hdiv]

/-- `Convolve` of a valid kernel answers four bytes per pixel (R151). -/
theorem convolve_eq (t : Tie) (w h : Nat) (src : Memory) (hodd : k.length % 2 = 1)
    (hk : ∀ row ∈ k, row.length = k.length) : convolve t w h src k = .ok (convBytes t w h src k 0 (w * h)) :=
  if_pos (kernelValid_iff.2 ⟨hodd, hk⟩)

/-- A colour byte of the output (R151). -/
theorem convBytes_getD_colour (hk : ∀ row ∈ k, row.length = k.length) {x y ch : Nat} (hx : x < w) (hy : y < h)
    (hch : ch < 3) : (convBytes t w h src k 0 (w * h)).getD (pixelAddr w x y ch) 0 =
      sat8 t (kernelSum w h src k x y ch).num (kernelSum w h src k x y ch).den := by
  rw [convBytes_getD_pixelAddr hx hy (by omega), ← convByte_eq hk]
  interval_cases ch <;> rfl

/-! ### What `Convolve` reads -/

theorem convByte_congr {dst : Memory} (hsrc : ∀ a, a < imageBytes w h → dst.read a = src.read a) (x y : Nat) {ch : Nat}
    (hch : ch < 3) : convByte t w h dst k x y ch = convByte t w h src k x y ch := by
  have hsum : convSum dst w ch 0 (kernelTaps w h (k.length / 2) x y 0 k) =
      convSum src w ch 0 (kernelTaps w h (k.length / 2) x y 0 k) := by
    rw [convSum_eq, convSum_eq]
    refine congrArg (fun l : List Rat => 0 + l.sum) (List.map_congr_left fun tap htap => ?_)
    obtain ⟨htx, hty⟩ := mem_kernelTaps htap
    rw [hsrc _ (pixelAddr_lt htx hty (by omega))]
  simp only [convByte, hsum]

/-- An output pixel is computed from the bytes of the image (R153). -/
theorem convPixel_congr {dst : Memory} (hsrc : ∀ a, a < imageBytes w h → dst.read a = src.read a) {p : Nat}
    (hp : p < w * h) : convPixel t w h dst k p = convPixel t w h src k p := by
  have hw : 0 < w := Nat.pos_of_mul_pos_right (Nat.lt_of_le_of_lt (Nat.zero_le p) hp)
  have halpha := hsrc _ (pixelAddr_lt (ch := 3) (Nat.mod_lt p hw) (Nat.div_lt_of_lt_mul hp) (by decide))
  simp only [convPixel, halpha, convByte_congr hsrc _ _ (show 0 < 3 by decide),
    convByte_congr hsrc _ _ (show 1 < 3 by decide), convByte_congr hsrc _ _ (show 2 < 3 by decide)]

theorem convBytes_congr {dst : Memory} (hsrc : ∀ a, a < imageBytes w h → dst.read a = src.read a) {p n : Nat}
    (hn : p + n ≤ w * h) : convBytes t w h dst k p n = convBytes t w h src k p n := by
  induction n generalizing p with
  | zero => rfl
  | succ n ih => rw [convBytes, convBytes, convPixel_congr hsrc (by omega), ih (by omega)]

/-- `Convolve` depends on no byte outside the image, whether the kernel is valid or not (R158). -/
theorem convolve_congr (t : Tie) {dst : Memory} (k : Kernel) (hsrc : ∀ a, a < imageBytes w h → dst.read a = src.read a) :
    convolve t w h dst k = convolve t w h src k := by
  rw [convolve, convolve, convBytes_congr hsrc (by omega)]

/-- On a single pixel the centre weight alone has a coordinate in range (R158). -/
theorem kernelSum_one_one (src : Memory) (hodd : k.length % 2 = 1) (ch : Nat) :
    kernelSum 1 1 src k 0 0 ch =
      ((src.read ch).toNat : Rat) * (k.getD (k.length / 2) []).getD (k.length / 2) 0 := by
  have hcentre (off : Nat) : (k.length / 2 ≤ 0 + off ∧ 0 + off - k.length / 2 < 1) ↔ off = k.length / 2 := by omega
  have hmem : k.length / 2 ∈ Finset.range k.length := Finset.mem_range.2 (by omega)
  simp only [kernelSum, hcentre, ite_and, Finset.sum_ite_irrel, Finset.sum_const_zero, Finset.sum_ite_eq', hmem, if_true]
  simp

end Sys2Proof.Machine
end

section
/-! SUPPORT. The kernel of sharpen, and what `Apply` of the two neighbourhood filters leaves (spec/42_convolution.md
R154 to R158). -/

namespace Sys2Proof.Machine

variable {t : Tie} {i : Instr} {w h x y ch : Nat} {m p src : Memory}

/-! ### The kernel of sharpen -/

/-- The kernel sum of sharpen is the centre four times less the neighbours that exist (R154). -/
theorem sharpenSum_eq (src : Memory) (hx : x < w) (hy : y < h) (ch : Nat) :
    sharpenSum src w h x y ch =
      let c := fun (x' y' : Nat) => ((src.read (pixelAddr w x' y' ch)).toNat : Int)
      4 * c x y - (if 0 < y then c x (y - 1) else 0) - (if y + 1 < h then c x (y + 1) else 0) -
        (if 0 < x then c (x - 1) y else 0) - (if x + 1 < w then c (x + 1) y else 0) := by
  have htop : (1 ≤ y ∧ y - 1 < h) ↔ 0 < y := by omega
  have hleft : (1 ≤ x ∧ x - 1 < w) ↔ 0 < x := by omega
  rw [sharpenSum, sharpenTaps, sum_kernelTaps_square _ w h 1 x y 0 (by decide)]
  simp only [Rom.sharpenK, List.length_cons, List.length_nil, Nat.reduceAdd, Finset.sum_range_succ,
    Finset.sum_range_zero, List.getD_cons_zero, List.getD_cons_succ, Nat.add_zero, Nat.add_one_sub_one, Nat.zero_add,
    Nat.le_add_left, htop, hleft, hx, hy, true_and, and_true, mul_zero, ite_self]
  split_ifs <;> ring

/-- The byte sharpen stores is the clamped sum, which is an integer (R154). -/
theorem sharpenByte_toNat (t : Tie) (src : Memory) (w h x y ch : Nat) :
    ((sharpenByte t src w h x y ch).toNat : Int) = max 0 (min 255 (sharpenSum src w h x y ch)) := by
  rw [sharpenByte, sat8_one, toByte_toNat, clamp255]

theorem sharpenKernel_eq : sharpenKernel = [[0, -1, 0], [-1, 4, -1], [0, -1, 0]] := by
  simp [sharpenKernel, Rom.sharpenK]

/-- The rational kernel sum of the ROM kernel is its integer kernel sum (R152, R154). -/
theorem kernelSum_sharpenKernel (src : Memory) (w h x y ch : Nat) :
    kernelSum w h src sharpenKernel x y ch = (sharpenSum src w h x y ch : Int) := by
  have hweight (ky kx : Nat) : (sharpenKernel.getD ky []).getD kx 0 = (((Rom.sharpenK.getD ky []).getD kx 0 : Int) : Rat) := by
    rw [← Int.cast_zero, ← List.getD_map (f := Int.cast), ← List.getD_map (f := List.map Int.cast)]
    rfl
  rw [sharpenSum, sharpenTaps, sum_kernelTaps_square _ w h 1 x y 0 (by decide)]
  simp only [kernelSum, hweight]
  push_cast
  rfl

/-! ### The image as the scan reaches a pixel -/

/-- `m` is what `Apply` has made of `p` when its scan reaches pixel `(x, y)`: the pixel takes its colour from it, the
pixels before it in row-major order have their final bytes, the pixel itself and those after it their original ones. -/
structure ReachedImage (t : Tie) (i : Instr) (w h : Nat) (p : Memory) (x y : Nat) (m : Memory) : Prop where
  colour : rgbAt (applyCommand t i w h p) w x y = pixelColour t i w h p m y x
  before : ∀ x' y' ch, x' < w → ch < 4 → y' < y ∨ (y' = y ∧ x' < x) →
    m.read (pixelAddr w x' y' ch) = (applyCommand t i w h p).read (pixelAddr w x' y' ch)
  after : ∀ x' y' ch, x' < w → ch < 4 → y < y' ∨ (y = y' ∧ x ≤ x') →
    m.read (pixelAddr w x' y' ch) = p.read (pixelAddr w x' y' ch)

/-- Every pixel of the scan is reached. -/
theorem exists_reachedImage (t : Tie) (hp : p.wf) (hs : inScan i w h y x = true) :
    ∃ m, ReachedImage t i w h p x y m := by
  obtain ⟨l₁, l₂, hsplit, hbefore, hafter⟩ := scanOrder_split hs
  have hcol : ∀ q ∈ l₁ ++ (y, x) :: l₂, q.2 < w := fun q hq => scanOrder_column (hsplit ▸ hq)
  have hlater : ∀ q ∈ (y, x) :: l₂, y < q.1 ∨ (y = q.1 ∧ x ≤ q.2) := fun q hq => by
    rcases List.mem_cons.1 hq with rfl | hq
    · exact .inr ⟨rfl, Nat.le_refl _⟩
    · have := hafter q hq; omega
  refine ⟨applyAt t i w h p p l₁, ?colour, fun x' y' ch hx' hch hpos => ?before, fun x' y' ch hx' hch hpos => ?after⟩
  case colour =>
    rw [applyCommand, hsplit]
    exact rgbAt_applyAt hp (inScan_image hs).1 (fun q hq => hcol q (by simp [hq])) fun hm => by have := hafter _ hm; omega
  case before =>
    rw [applyCommand, hsplit, applyAt_append]
    exact (applyAt_read_unvisited t i h p _ hx' hch (fun q hq => hcol q (by simp [hq]))
      fun hm => by have := hlater _ hm; omega).symm
  case after =>
    exact applyAt_read_unvisited t i h p p hx' hch (fun q hq => hcol q (by simp [hq]))
      fun hm => by have := hbefore _ hm; omega

/-- A pixel that the scan does not visit keeps its bytes. -/
theorem read_applyCommand_unscanned (t : Tie) (p : Memory) (hx : x < w) (hch : ch < 4) (hs : ¬ inScan i w h y x = true) :
    (applyCommand t i w h p).read (pixelAddr w x y ch) = p.read (pixelAddr w x y ch) :=
  applyAt_read_unvisited t i h p p hx hch (fun _ hq => scanOrder_column hq) (mt mem_scanOrder.1 hs)

/-- A lane of a pixel whose colour is given lane by lane. -/
theorem read_of_rgbAt {f : Nat → Byte} (hc : rgbAt m w x y = ⟨f 0, f 1, f 2⟩) (hch : ch < 3) :
    m.read (pixelAddr w x y ch) = f ch := by
  obtain ⟨hr, hg, hb⟩ := Rgb.mk.inj hc
  interval_cases ch
  · exact hr
  · exact hg
  · exact hb

/-- `Apply` of sharpen stores the kernel sum over the original image (R154). -/
theorem read_applyCommand_sharpen (t : Tie) (hp : p.wf) (hx : x < w) (hy : y < h) (hch : ch < 3) :
    (applyCommand t .sharpen w h p).read (pixelAddr w x y ch) = sharpenByte t p w h x y ch := by
  obtain ⟨m, hm⟩ := exists_reachedImage t hp (show inScan .sharpen w h y x = true from decide_eq_true ⟨hx, hy⟩)
  exact read_of_rgbAt (f := sharpenByte t p w h x y) hm.colour hch

/-- On a flat image the neighbours cancel one centre each (R158). -/
theorem sharpenSum_flat {c : Byte} (hflat : ∀ x y, x < w → y < h → src.read (pixelAddr w x y ch) = c) (hx : x < w)
    (hy : y < h) : sharpenSum src w h x y ch = ((4 - neighbours4 w h x y : Nat) : Int) * c.toNat := by
  have hleft : src.read (pixelAddr w (x - 1) y ch) = c := hflat _ _ (by omega) hy
  have htop : src.read (pixelAddr w x (y - 1) ch) = c := hflat _ _ hx (by omega)
  have hright (h' : x + 1 < w) : src.read (pixelAddr w (x + 1) y ch) = c := hflat _ _ h' hy
  have hbottom (h' : y + 1 < h) : src.read (pixelAddr w x (y + 1) ch) = c := hflat _ _ hx h'
  have hle : neighbours4 w h x y ≤ 4 := by unfold neighbours4; split_ifs <;> decide
  rw [sharpenSum_eq src hx hy, Nat.cast_sub hle, neighbours4]
  simp only [hflat x y hx hy, hleft, htop]
  push_cast
  split_ifs <;> simp [*] <;> ring

/-! ### Blur -/

/-- The pixels blur does not scan are those of the border (R157). -/
theorem not_inScan_blur (hb : x = 0 ∨ x + 1 = w ∨ y = 0 ∨ y + 1 = h) : ¬ inScan .blur w h y x = true := by
  rw [inScan_interior]
  omega

theorem read_applyCommand_blur_border (t : Tie) (p : Memory) (hx : x < w) (hch : ch < 4)
    (hb : x = 0 ∨ x + 1 = w ∨ y = 0 ∨ y + 1 = h) :
    (applyCommand t .blur w h p).read (pixelAddr w x y ch) = p.read (pixelAddr w x y ch) :=
  read_applyCommand_unscanned t p hx hch (not_inScan_blur hb)

/-- The colour blur stores at an interior pixel averages new bytes to the left and above, and original bytes to the
right and below (R156). -/
theorem read_applyCommand_blur (t : Tie) (hp : p.wf) (hs : inScan .blur w h y x = true) (hch : ch < 3) :
    (applyCommand t .blur w h p).read (pixelAddr w x y ch) =
      sat8 t (((applyCommand t .blur w h p).read (pixelAddr w (x - 1) y ch)).toNat +
        (p.read (pixelAddr w (x + 1) y ch)).toNat +
        ((applyCommand t .blur w h p).read (pixelAddr w x (y - 1) ch)).toNat +
        (p.read (pixelAddr w x (y + 1) ch)).toNat) 4 := by
  obtain ⟨m, hm⟩ := exists_reachedImage t hp hs
  obtain ⟨hx1, hx2, hy1, hy2⟩ := inScan_interior.1 hs
  rw [read_of_rgbAt (f := blurByte t m w x y) hm.colour hch, blurByte, blurSum,
    hm.before (x - 1) y ch (by omega) (by omega) (by omega), hm.before x (y - 1) ch (by omega) (by omega) (by omega),
    hm.after (x + 1) y ch (by omega) (by omega) (by omega), hm.after x (y + 1) ch (by omega) (by omega) (by omega)]

/-- A step of blur changes no byte of a border pixel (R157). -/
theorem exec_blur_border {s u : State} (hstep : exec .blur s = .next u) (hx : x < s.w) (hch : ch < 4)
    (hb : x = 0 ∨ x + 1 = s.w ∨ y = 0 ∨ y + 1 = s.h) :
    u.pm.read (pixelAddr s.w x y ch) = s.pm.read (pixelAddr s.w x y ch) := by
  rcases exec_next_cases hstep with ⟨-, rfl⟩ | ⟨-, -, rfl⟩ | ⟨-, y', x', c, -, hs, -, rfl⟩
  · rw [(issue_frame .blur s).1]
  · rfl
  · refine read_putRgb_other s.pm c (pixelAddr_outside hx (inScan_image hs).1 hch fun he => ?_)
    obtain ⟨rfl, rfl⟩ := Prod.mk.inj he
    exact not_inScan_blur hb hs

/-- Without an interior the scan of blur is empty (R157). -/
theorem scanOrder_blur_nil (hsmall : w < 3 ∨ h < 3) : scanOrder .blur w h = [] := by
  refine List.eq_nil_iff_forall_not_mem.2 fun q hq => ?_
  have := inScan_interior.1 (mem_scanOrder.1 hq)
  omega

/-! ### An image on which blur is not `Convolve` -/

/-- The kernel that would average the four neighbours (R160). -/
def fourNeighbourKernel : Kernel := [[0, 1 / 4, 0], [1 / 4, 0, 1 / 4], [0, 1 / 4, 0]]

/-- In a 4 by 3 image: the red byte of pixel (1, 0) is 64, every other byte is 0. -/
def redDot : Memory := [(4, 64)]

theorem kernelSum_redDot_interior : kernelSum 4 3 redDot fourNeighbourKernel 2 1 0 = 0 := by
  simp [kernelSum, Finset.sum_range_succ, fourNeighbourKernel, redDot, Memory.unlisted]

theorem kernelSum_redDot_border : kernelSum 4 3 redDot fourNeighbourKernel 0 0 0 = 16 := by
  have h64 : (64 : Byte).toNat = 64 := rfl
  norm_num [kernelSum, Finset.sum_range_succ, fourNeighbourKernel, redDot, Memory.unlisted, h64]

end Sys2Proof.Machine
end

section
/-! The statements of spec/42_convolution.md: sharpen, blur and `Convolve`. -/

namespace Sys2Proof.Machine

/-- Settles O41. -/
theorem sharpenFiltersPixel : Obligations.SharpenFiltersPixel := by
  refine ⟨rfl, fun s y x hp => ?_⟩
  obtain ⟨t, hexec, hframe, hcolour⟩ := exec_atPixel hp
  obtain ⟨hx, hy⟩ := inScan_image hp.scan
  refine ⟨t, hexec, hframe, fun ch hch => ?_⟩
  rw [read_of_rgbAt (f := sharpenByte s.params.tie s.snap s.w s.h x y) hcolour hch, sharpenByte_toNat,
    sharpenSum_eq s.snap hx hy]
  rfl

/-- Settles O42. -/
theorem blurFiltersPixel : Obligations.BlurFiltersPixel := by
  refine ⟨rfl, fun s y x hp => ?_⟩
  obtain ⟨t, hexec, hframe, hcolour⟩ := exec_atPixel hp
  exact ⟨t, hexec, hframe, fun ch hch => read_of_rgbAt (f := blurByte s.params.tie s.pm s.w x y) hcolour hch⟩

/-- Settles O52. -/
theorem convolveMeetsContract : Obligations.ConvolveMeetsContract := by
  intro t w h src k hodd hk
  refine ⟨_, convolve_eq t w h src hodd hk, by rw [convBytes_length, Nat.mul_assoc], fun x y hx hy => ?_⟩
  exact ⟨fun ch hch => convBytes_getD_colour hk hx hy hch, convBytes_getD_pixelAddr hx hy (by decide)⟩

/-- Settles O53: a colour byte is in both the clamped kernel sum of the original image, and alpha is copied. -/
theorem sharpenIsConvolveWithItsKernel : Obligations.SharpenIsConvolveWithItsKernel := by
  intro t w h p hp
  rw [← sharpenKernel_eq]
  have hsquare : ∀ row ∈ sharpenKernel, row.length = sharpenKernel.length := by simp [sharpenKernel, Rom.sharpenK]
  refine ⟨_, convolve_eq t w h p rfl hsquare, by rw [convBytes_length, Nat.mul_assoc], fun a ha => ?_⟩
  obtain ⟨x, y, ch, hx, hy, hch, rfl⟩ := exists_pixelAddr ha
  by_cases halpha : ch = 3
  · rw [halpha, read_applyCommand_alpha, convBytes_getD_pixelAddr hx hy (by decide)]
    rfl
  · rw [read_applyCommand_sharpen t hp hx hy (by omega), convBytes_getD_colour hsquare hx hy (by omega),
      kernelSum_sharpenKernel]
    rfl

/-- Settles O54. -/
theorem flatAndSinglePixelConvolutions : Obligations.FlatAndSinglePixelConvolutions := by
  refine ⟨fun t w h p c ch hp hch hflat x y hx hy => ?_, fun t src k hodd hk => ?_,
    fun t w h src dst k hsrc => convolve_congr t k hsrc⟩
  · have hbyte := sharpenByte_toNat t p w h x y ch
    rw [sharpenSum_flat hflat hx hy] at hbyte
    rw [read_applyCommand_sharpen t hp hx hy hch]
    omega
  · refine ⟨_, convolve_eq t 1 1 src hodd hk, convBytes_length .., fun ch hch => ?_⟩
    have hbyte := convBytes_getD_colour (t := t) (src := src) hk Nat.zero_lt_one Nat.zero_lt_one hch
    rw [kernelSum_one_one src hodd] at hbyte
    simpa [pixelAddr] using hbyte

/-- Settles O55. -/
theorem blurFeedsBackInScanOrder : Obligations.BlurFeedsBackInScanOrder :=
  fun t _ _ p hp => ⟨fun _ _ _ hx1 hx2 hy1 hy2 hch =>
      read_applyCommand_blur t hp (inScan_interior.2 ⟨hx1, hx2, hy1, hy2⟩) hch,
    fun _ _ _ hx _ hch hb => read_applyCommand_blur_border t p hx (by omega) hb⟩

/-- Settles O56: without an interior the scan is empty, so the issue and the completion step are the whole command. -/
theorem blurNeverWritesBorder : Obligations.BlurNeverWritesBorder := by
  refine ⟨fun s u hstep x y ch hx _ hch hb => exec_blur_border hstep hx hch hb,
    fun t w h p x y ch hx _ hch hb => read_applyCommand_blur_border t p hx hch hb, fun s hm hg hsmall => ?_⟩
  have hscan := scanOrder_blur_nil hsmall
  have hcmd := execTimes_command .blur hm hg
  rw [← scanOrder_length, applyCommand, hscan] at hcmd
  exact ⟨_, hcmd, rfl, rfl, rfl, rfl⟩

/-- Settles O57: one red byte 64 above the first of two interior pixels. Blur averages it to 16 and feeds that back into
the second, where `Convolve` answers 0; and `Convolve` adds it to the border pixel beside it, which blur leaves 0. -/
theorem blurIsNotConvolve : Obligations.BlurIsNotConvolve := by
  obtain ⟨out, hout, -, hbytes⟩ := convolveMeetsContract .even 4 3 redDot fourNeighbourKernel rfl
    (by simp [fourNeighbourKernel])
  have hinterior : out.getD (pixelAddr 4 2 1 0) 0 = 0 := by
    have hbyte := (hbytes 2 1 (by decide) (by decide)).1 0 (by decide)
    rw [kernelSum_redDot_interior] at hbyte
    exact hbyte
  have hborder : out.getD (pixelAddr 4 0 0 0) 0 = 16 := by
    have hbyte := (hbytes 0 0 (by decide) (by decide)).1 0 (by decide)
    rw [kernelSum_redDot_border] at hbyte
    exact hbyte
  refine ⟨4, 3, redDot, out, pixelAddr 4 2 1 0, pixelAddr 4 0 0 0, by decide, hout, ⟨2, 1, by decide⟩, ⟨0, by decide⟩, ?_⟩
  rw [hinterior, hborder]
  decide

end Sys2Proof.Machine
end

section
/-! SUPPORT. No step of the engine looks at `IE` or `PROTO`: mapping the two flags commutes with everything the engine
does (spec/60_exceptions.md R180, R181). -/

namespace Sys2Proof.Machine

/-- The state with its `IE` and its `PROTO` mapped, all else as it is. -/
def State.mapIeProto (f g : Bool → Bool) (s : State) : State := { s with ie := f s.ie, proto := g s.proto }

variable (f g : Bool → Bool) (s : State)

@[simp] theorem mapIeProto_params : (s.mapIeProto f g).params = s.params := rfl
@[simp] theorem mapIeProto_cmd : (s.mapIeProto f g).cmd = s.cmd := rfl
@[simp] theorem mapIeProto_mode : (s.mapIeProto f g).mode = s.mode := rfl
@[simp] theorem mapIeProto_cur : (s.mapIeProto f g).cur = s.cur := rfl
@[simp] theorem mapIeProto_w : (s.mapIeProto f g).w = s.w := rfl
@[simp] theorem mapIeProto_h : (s.mapIeProto f g).h = s.h := rfl
@[simp] theorem mapIeProto_nextTurn : nextTurn (s.mapIeProto f g) = nextTurn s := rfl

theorem colourOf_mapIeProto (t : Tie) (i : Instr) (x y : Nat) :
    colourOf t i x y (s.mapIeProto f g) = colourOf t i x y s := by
  cases i <;> rfl

theorem memWrite_mapIeProto (a : Nat) (v : Byte) :
    memWrite (s.mapIeProto f g) a v = State.mapIeProto f g <$> memWrite s a v := by
  unfold memWrite
  rw [mapIeProto_params]
  split <;> rfl

theorem storeRgb_mapIeProto (x y : Nat) (c : Rgb) :
    storeRgb (s.mapIeProto f g) x y c = State.mapIeProto f g <$> storeRgb s x y c := by
  simp only [storeRgb, memWrite_mapIeProto, mapIeProto_w, map_bind, bind_map_left]

theorem pixelStep_mapIeProto (t : Tie) (i : Instr) (y x : Nat) :
    pixelStep i (colourOf t i) y x (s.mapIeProto f g) =
      State.mapIeProto f g <$> pixelStep i (colourOf t i) y x s := by
  simp only [pixelStep, colourOf_mapIeProto, storeRgb_mapIeProto, mapIeProto_w, mapIeProto_h, map_bind, bind_map_left,
    map_pure]
  rfl

theorem engineStep_mapIeProto (t : Tie) (i : Instr) :
    engineStep i (colourOf t i) (s.mapIeProto f g) =
      mapNext (State.mapIeProto f g) (engineStep i (colourOf t i) s) := by
  unfold engineStep
  rw [mapIeProto_cur]
  cases s.cur with
  | fin => rfl
  | pix y x =>
    simp only [pixelStep_mapIeProto, mapIeProto_w, mapIeProto_h]
    split
    · exact toOutcome_map _ _
    · rfl

theorem issue_mapIeProto (i : Instr) : issue i (s.mapIeProto f g) = (issue i s).mapIeProto f g := by
  have he : issueError i (beginIssue (encode i) (s.mapIeProto f g)) = issueError i (beginIssue (encode i) s) := rfl
  unfold issue
  simp only [he]
  cases issueError i (beginIssue (encode i) s) with
  | some e => rfl
  | none => cases usesKernel i <;> rfl

theorem exec_mapIeProto (i : Instr) :
    exec i (s.mapIeProto f g) = mapNext (State.mapIeProto f g) (exec i s) := by
  rw [exec_eq, exec_eq]
  unfold commandStep
  rw [mapIeProto_mode]
  cases s.mode with
  | idle => exact congrArg Host.Outcome.next (issue_mapIeProto f g s i)
  | busy => exact engineStep_mapIeProto f g s s.params.tie i

theorem engineTurn_mapIeProto : engineTurn (s.mapIeProto f g) = mapNext (State.mapIeProto f g) (engineTurn s) := by
  unfold engineTurn
  rw [mapIeProto_mode, mapIeProto_cmd, mapIeProto_cur]
  cases s.mode with
  | idle => rfl
  | busy =>
    cases decodeKind s.cmd with
    | ok i => exact exec_mapIeProto f g s i
    | error _ => cases s.cur <;> rfl

/-- An engine turn does the same under any values of `IE` and `PROTO` (R180, R181). -/
theorem step_engine_mapIeProto (hn : nextTurn s = .engine) :
    step (s.mapIeProto f g) = mapNext (State.mapIeProto f g) (step s) := by
  rw [step_engine hn, step_engine ((mapIeProto_nextTurn f g s).trans hn)]
  exact engineTurn_mapIeProto f g (takeTurn s)

end Sys2Proof.Machine
end

section
/-! SUPPORT. The error reports of an issue, and the steps that clear `PROTO` or set an error code
(spec/60_exceptions.md R170 to R181). -/

namespace Sys2Proof.Machine

variable {s t : State}

/-- The whole effect of an issue that fails a check (R110, R178). -/
theorem exec_rejected {i : Instr} {e : IssueError} (hm : s.mode = .idle) (he : issueError i s = some e) :
    exec i s = .next { s with
      cmd := encode i, done := false, err := true, errCode := e.code, rejected := s.rejected ++ [⟨e, s.position⟩] } := by
  have he' : issueError i (beginIssue (encode i) s) = some e := he
  rw [exec_idle hm, issue, he']
  rfl

/-- No command's issue reports `InvalidKernel` (R171). -/
theorem issueError_ne_invalidKernel (i : Instr) (s : State) : issueError i s ≠ some .invalidKernel := by
  rw [issueError_eq]
  split_ifs <;> simp

/-- The code 1 is that of `InvalidKernel` (R170). -/
theorem IssueError.code_eq_one_iff (e : IssueError) : e.code = 1 ↔ e = .invalidKernel := by
  cases e <;> decide

/-- `PROTO` is cleared by its acknowledgement or a reset only (R29, R181). -/
theorem StepEffect.proto_cleared (h : StepEffect s t) (hs : s.proto = true) (ht : t.proto = false) :
    s.Acknowledges 3 ∨ s.ResetTurn := by
  cases h with
  | status v rest hn hscr => exact .inl ⟨hn, v, rest, hscr, by simpa [hs] using ht⟩
  | reset pm snap hn => exact .inr ⟨pm, snap, hn⟩
  | issueAccepted => split at ht <;> simp [hs] at ht
  | _ => simp [hs, issueIllegal] at ht

/-- No step brings `ERRCODE` to 1 (R171): an illegal word has the code 3, and no command's issue reports
`InvalidKernel`. -/
theorem StepEffect.errCode_eq_one (h : StepEffect s t) (ht : t.errCode = 1) : s.errCode = 1 := by
  cases h with
  | status v rest =>
    rw [ackStatus_errCode] at ht
    split at ht
    · exact absurd ht (by decide)
    · exact ht
  | illegalWord => exact absurd (show IssueError.code .illegalFilter = 1 from ht) (by decide)
  | issueRejected i e _ _ _ _ he =>
    rw [(IssueError.code_eq_one_iff e).1 ht] at he
    exact absurd he (issueError_ne_invalidKernel i s)
  | issueAccepted => split at ht <;> exact absurd (show (0 : BitVec 4) = 1 from ht) (by decide)
  | reset => exact absurd (show (0 : BitVec 4) = 1 from ht) (by decide)
  | _ => exact ht

end Sys2Proof.Machine
end

section
/-! The statements of spec/60_exceptions.md: the five errors, the flags an engine step does not look at, and the idle
engine. -/

namespace Sys2Proof.Machine

/-- Settles O17. -/
theorem engineIgnoresInterruptEnable : Obligations.EngineIgnoresInterruptEnable :=
  ⟨fun s b hn => step_engine_mapIeProto (fun _ => b) id s hn, fun s b i => exec_mapIeProto (fun _ => b) id s i⟩

/-- Settles O18: the last part is the inversion of a step that clears `PROTO`. -/
theorem protoIsStickyAndHarmless : Obligations.ProtoIsStickyAndHarmless := by
  refine ⟨fun s b i => exec_mapIeProto id (fun _ => b) s i, fun _ => ⟨rfl, rfl, rfl⟩, fun s t hstep hs => ?_⟩
  cases ht : t.proto with
  | true => exact .inl rfl
  | false => exact .inr ((step_effect hstep).proto_cleared hs ht)

/-- Settles O25: the three checks in their order. -/
theorem rejectedIssueReportsFirstError : Obligations.RejectedIssueReportsFirstError := by
  intro i s hm
  refine ⟨fun h0 => ?zeroDimension, fun hw hh hlen => ?dimensionMismatch, fun hw hh hlen hcap => ?capacity⟩
  case zeroDimension =>
    have he : issueError i s = some .zeroDimension := by rw [issueError_eq, if_pos h0]
    exact exec_rejected hm he
  case dimensionMismatch =>
    have he : issueError i s = some .dimensionMismatch := by
      rw [issueError_eq, if_neg (not_or.2 ⟨hw, hh⟩), imageBytes, if_pos hlen]
    exact exec_rejected hm he
  case capacity =>
    have he : issueError i s = some .capacity := by
      rw [issueError_eq, if_neg (not_or.2 ⟨hw, hh⟩), imageBytes, if_neg (not_not.2 hlen), if_pos hcap]
    exact exec_rejected hm he

/-- Settles O26: such a word is none of the eleven command words. -/
theorem illegalWordRaisesIllegalFilter : Obligations.IllegalWordRaisesIllegalFilter := by
  intro s v rest hn hs hm hv
  have hne : ∀ i, v ≠ encode i := ne_encode_of_le (by omega)
  rw [step_csrWrite hn hs]
  exact writeCmd_illegal (s := afterTake rest s) hm hne

/-- Settles O27. -/
theorem invalidKernelOnlyFromConvolve : Obligations.InvalidKernelOnlyFromConvolve :=
  ⟨fun _ _ hstep => (step_effect hstep).errCode_eq_one, fun _ _ _ _ _ hk => if_neg (mt kernelValid_iff.1 hk)⟩

/-- Settles O22. -/
theorem idleEngineIsInactive : Obligations.IdleEngineIsInactive :=
  fun s hn hm => (step_engine hn).trans (engineTurn_idle (s := takeTurn s) hm)

end Sys2Proof.Machine
end

section
/-! SUPPORT. What a step does to the record of rejected issues, said once together with `ERR` and `ERRCODE`, and `ERR`
while the engine is BUSY (spec/10_state.md R29, spec/60_exceptions.md R178, spec/70_reset_and_hazards.md R211). -/

namespace Sys2Proof.Machine

variable {s t : State}

/-- The step takes a statement whose issue is rejected with the error `e` (R178, R211). -/
structure Rejects (e : IssueError) (s t : State) : Prop where
  rejected : t.rejected = s.rejected ++ [⟨e, s.position + 1⟩]
  err : t.err = true
  code : t.errCode = e.code

/-- The step leaves the record, and an `ERR` set after it was set before it with the same code (R29). -/
structure KeepsRecord (s t : State) : Prop where
  rejected : t.rejected = s.rejected
  err : t.err = true → s.err = true ∧ t.errCode = s.errCode

/-- An acknowledgement that leaves `ERR` set leaves its code (R179). -/
theorem keepsRecord_ackStatus (v : Word) (s : State) : KeepsRecord s (ackStatus v s) := by
  refine ⟨rfl, fun herr => ?_⟩
  rw [ackStatus_err, Bool.and_eq_true, Bool.not_eq_true'] at herr
  obtain ⟨hs, hv⟩ := herr
  exact ⟨hs, by rw [ackStatus_errCode, hv, Bool.and_false, if_neg Bool.false_ne_true]⟩

theorem keepsRecord_of_err_clear (hr : t.rejected = s.rejected) (he : t.err = false) : KeepsRecord s t :=
  ⟨hr, fun herr => absurd (he.symm.trans herr) (by decide)⟩

/-- Only an issue that fails a check and an issue of an illegal word add to the record (R178, R211). -/
theorem StepEffect.record (h : StepEffect s t) : (∃ e, Rejects e s t) ∨ KeepsRecord s t := by
  cases h with
  | illegalWord => exact .inl ⟨.illegalFilter, rfl, rfl, rfl⟩
  | issueRejected i e => exact .inl ⟨e, rfl, rfl, rfl⟩
  | status v rest =>
    obtain ⟨hr, he⟩ := keepsRecord_ackStatus v (afterTake rest s)
    exact .inr ⟨hr, he⟩
  | issueAccepted => split <;> exact .inr (keepsRecord_of_err_clear rfl rfl)
  | reset => exact .inr (keepsRecord_of_err_clear rfl rfl)
  | _ => exact .inr ⟨rfl, fun herr => ⟨herr, rfl⟩⟩

theorem Rejects.errRecorded {e : IssueError} (h : Rejects e s t) : t.ErrRecorded :=
  fun _ => ⟨⟨e, s.position + 1⟩, by rw [h.rejected, List.getLast?_concat], h.code⟩

theorem State.ErrRecorded.of_keepsRecord (hs : s.ErrRecorded) (h : KeepsRecord s t) : t.ErrRecorded := by
  intro herr
  obtain ⟨hserr, hcode⟩ := h.err herr
  rw [h.rejected, hcode]
  exact hs hserr

/-- `ERR` is set by an issue attempt only, and a busy engine takes none (R29, R110). -/
theorem err_clear_kept : BusyStepsKeep fun s => s.err = false := by
  intro s t hs hm _ hstep
  by_contra ht
  obtain ⟨-, hidle, -⟩ := (step_effect hstep).err_set hs (eq_true_of_ne_false ht)
  exact absurd (hm.symm.trans hidle) (by decide)

end Sys2Proof.Machine
end

section
/-! The statements of spec/70_reset_and_hazards.md: the record of rejected issues, when a run has gone wrong, and the
completion of every issued command. -/

namespace Sys2Proof.Machine

/-- Settles O59: a step either enters a rejected issue in the record with its code, or keeps record and code. -/
theorem errorFlagReportsLastRejection : Obligations.ErrorFlagReportsLastRejection := by
  intro s t hs hstep
  rcases (step_effect hstep).record with ⟨e, hrej⟩ | hkeep
  · exact hrej.errRecorded
  · exact hs.of_keepsRecord hkeep

/-- Settles O28. -/
theorem rejectionRecordOnlyGrows : Obligations.RejectionRecordOnlyGrows := by
  intro s t hstep
  rcases (step_effect hstep).record with ⟨e, hrej⟩ | hkeep
  · exact .inr ⟨e, hrej.rejected, hrej.err, hrej.code⟩
  · exact .inl hkeep.rejected

/-- Settles O48: the issued command runs to its end, and `ERR` stays clear while it runs. -/
theorem everyScheduleCompletesCommand : Obligations.EveryScheduleCompletesCommand := by
  intro i s u hm hg hnr hexec
  obtain rfl : issue i s = u := Host.Outcome.next.inj ((exec_idle hm).symm.trans hexec)
  have hissue := issue_accepted i hg
  have himg : SameImage s (issue i s) := by rw [hissue]; exact ⟨rfl, rfl, rfl, rfl⟩
  have hturns : (issue i s).turns = s.turns := by rw [hissue]
  have hcmd : (issue i s).cmd = encode i := by rw [hissue]
  have hnr' : (issue i s).NoReset := by rw [State.NoReset, hturns]; exact hnr
  obtain ⟨n, t, hn, hrun, hdone, -, herr⟩ :=
    run_completes err_clear_kept (running_issue i hg) (busy_issue i hg) hnr' (by rw [hissue])
  rw [hturns, stepsLeft_issue i hg] at hn
  have himg' := himg.trans hdone.image
  exact ⟨n, t, hn, hrun, hdone.idle, hdone.done, herr, hdone.pm.trans (finalPm_issue i hg), himg'.width, himg'.height,
    himg'.len, hdone.cmd.trans hcmd⟩

/-- Settles O60: the rejection that a recorded `ERR` points to is an entry of the record. -/
theorem goneWrongUnlessIntended : Obligations.GoneWrongUnlessIntended := by
  refine ⟨fun herr => absurd herr (by decide), fun intended s hrec hproto hall hwrong => ?intended,
    fun intended s hproto => .inl hproto, fun intended s r herr hlast hpos => .inr ⟨herr, fun r' hr' => ?elsewhere⟩⟩
  case intended =>
    rcases hwrong with hp | ⟨herr, hout⟩
    · exact absurd (hproto.symm.trans hp) (by decide)
    · obtain ⟨r, hlast, -⟩ := hrec herr
      exact hout r hlast (hall r (List.mem_of_getLast? hlast))
  case elsewhere =>
    obtain rfl : r = r' := Option.some.inj (hlast.symm.trans hr')
    exact hpos

end Sys2Proof.Machine
end
